-- ==== Sys2Proof/Word.lean ====
section
/-! DEFINITION. The machine's word types (spec/00_scope.md R6, R10, R11): unsigned bit vectors for what the spec
numbers bit by bit, an index type for the sixteen register, key and stack numbers. -/

namespace Sys2Proof

/-- A byte: a general register, a timer, a memory cell or the immediate `kk` (R6, R94). -/
abbrev Byte := BitVec 8

/-- A 16-bit word: PC, I, a stack entry or an instruction word (R6, R90). -/
abbrev Word := BitVec 16

/-- The 12-bit address field `nnn` (R91). -/
abbrev Addr12 := BitVec 12

/-- A register number 0 to 15, selected by a 4-bit field `x` or `y` (R20, R95). -/
abbrev Reg := Fin 16

/-- A key number 0 to 15: the key port is 4 bits wide (R235). -/
abbrev Key := Fin 16

end Sys2Proof
end

