-- ==== Sys2Proof/Syntax.lean ====
section
/-! DEFINITION. The instruction set: one constructor per row of spec/opcode_table.json, in the table's order
(spec/30_encoding.md R97), with the operands each format carries (R92, R93). -/

namespace Sys2Proof

/-- A decoded instruction (R93): register numbers, an immediate byte, a 12-bit address or a sprite height. -/
inductive Instr where
  | sys (nnn : Addr12)            -- SYS 0nnn
  | cls                           -- CLS 00E0
  | ret                           -- RET 00EE
  | jp (nnn : Addr12)             -- JP 1nnn
  | call (nnn : Addr12)           -- CALL 2nnn
  | seRB (x : Reg) (kk : Byte)    -- SE_R_B 3xkk
  | sneRB (x : Reg) (kk : Byte)   -- SNE_R_B 4xkk
  | seRR (x y : Reg)              -- SE_R_R 5xy0
  | ldRB (x : Reg) (kk : Byte)    -- LD_R_B 6xkk
  | addRB (x : Reg) (kk : Byte)   -- ADD_R_B 7xkk
  | ldRR (x y : Reg)              -- LD_R_R 8xy0
  | or (x y : Reg)                -- OR 8xy1
  | and (x y : Reg)               -- AND 8xy2
  | xor (x y : Reg)               -- XOR 8xy3
  | add (x y : Reg)               -- ADD 8xy4
  | sub (x y : Reg)               -- SUB 8xy5
  | shr (x y : Reg)               -- SHR 8xy6
  | subn (x y : Reg)              -- SUBN 8xy7
  | shl (x y : Reg)               -- SHL 8xyE
  | sneRR (x y : Reg)             -- SNE_R_R 9xy0
  | ldI (nnn : Addr12)            -- LD_I Annn
  | jpV0 (nnn : Addr12)           -- JP_V0 Bnnn
  | rnd (x : Reg) (kk : Byte)     -- RND Cxkk
  | drw (x y : Reg) (n : Fin 16)  -- DRW Dxyn
  | skp (x : Reg)                 -- SKP Ex9E
  | sknp (x : Reg)                -- SKNP ExA1
  | ldRDT (x : Reg)               -- LD_R_DT Fx07
  | ldRK (x : Reg)                -- LD_R_K Fx0A
  | ldDTR (x : Reg)               -- LD_DT_R Fx15
  | ldSTR (x : Reg)               -- LD_ST_R Fx18
  | addIR (x : Reg)               -- ADD_I_R Fx1E
  | ldFR (x : Reg)                -- LD_F_R Fx29
  | ldBR (x : Reg)                -- LD_B_R Fx33
  | ldIIR (x : Reg)               -- LD_II_R Fx55
  | ldRII (x : Reg)               -- LD_R_II Fx65
  deriving DecidableEq, Repr

end Sys2Proof
end

