-- ==== Sys2Proof/WellFormed.lean ====
section
/-! DEFINITION. Which instruction values are representable (spec/30_encoding.md R108). Every bound on an operand is in
its type; the one check left is that SYS does not carry the address field of CLS or of RET. -/

namespace Sys2Proof

/-- SYS(0x0E0) and SYS(0x0EE) are no instructions: their words are CLS and RET (R98, R108). -/
def sysFieldOk (nnn : Addr12) : Bool := nnn != 0x0E0 && nnn != 0x0EE

/-- The representable instructions (R108). -/
def Instr.wf : Instr → Bool
  | .sys nnn => sysFieldOk nnn
  | .cls | .ret | .jp _ | .call _ => true
  | .seRB _ _ | .sneRB _ _ | .seRR _ _ | .sneRR _ _ | .skp _ | .sknp _ => true
  | .ldRB _ _ | .addRB _ _ | .ldRR _ _ | .or _ _ | .and _ _ | .xor _ _ => true
  | .add _ _ | .sub _ _ | .shr _ _ | .subn _ _ | .shl _ _ | .rnd _ _ => true
  | .ldI _ | .jpV0 _ | .drw _ _ _ => true
  | .ldRDT _ | .ldRK _ | .ldDTR _ | .ldSTR _ => true
  | .addIR _ | .ldFR _ | .ldBR _ | .ldIIR _ | .ldRII _ => true

/-- An instruction value is well formed when it is representable. -/
abbrev WellFormed (i : Instr) : Prop := i.wf = true

end Sys2Proof
end

