-- ==== Sys2Proof/Decode.lean ====
section
/-! DEFINITION. The codec (spec/30_encoding.md): the fields of a word (R91), `decode` (R96, R98 to R104), the same on
bytes with a named rejection, and after them `encode` (R108) and the opcode table's mask and match columns. -/

namespace Sys2Proof

/-! ## Fields of a word (R91) -/

/-- `a` = w[15:12], the primary opcode. -/
def fieldA (w : Word) : BitVec 4 := w.extractLsb' 12 4

/-- `x` = w[11:8], a register number. -/
def fieldX (w : Word) : Reg := (w.extractLsb' 8 4).toFin

/-- `y` = w[7:4], a register number. -/
def fieldY (w : Word) : Reg := (w.extractLsb' 4 4).toFin

/-- `z` = w[3:0], also the sprite height `n`. -/
def fieldZ (w : Word) : Fin 16 := (w.extractLsb' 0 4).toFin

/-- `yz` = w[7:0], also the immediate `kk`. -/
def fieldKK (w : Word) : Byte := w.extractLsb' 0 8

/-- `xyz` = w[11:0], the address field `nnn`. -/
def fieldNNN (w : Word) : Addr12 := w.extractLsb' 0 12

/-! ## Decoding, group by group -/

/-- Group a = 0, selected by `xyz`: CLS, RET, and every other word SYS (R98). -/
def decodeGroup0 (w : Word) : Instr :=
  match (fieldNNN w).toNat with
  | 0x0E0 => .cls
  | 0x0EE => .ret
  | _ => .sys (fieldNNN w)

/-- Groups 5 and 9 have one member each, with `z` = 0 (R99, R101). -/
def decodeZ0 (i : Reg → Reg → Instr) (w : Word) : Option Instr :=
  match (fieldZ w).val with
  | 0x0 => some (i (fieldX w) (fieldY w))
  | _ => none

/-- Group a = 8, the arithmetic group, selected by `z` (R100). -/
def decodeGroup8 (w : Word) : Option Instr :=
  match (fieldZ w).val with
  | 0x0 => some (.ldRR (fieldX w) (fieldY w))
  | 0x1 => some (.or (fieldX w) (fieldY w))
  | 0x2 => some (.and (fieldX w) (fieldY w))
  | 0x3 => some (.xor (fieldX w) (fieldY w))
  | 0x4 => some (.add (fieldX w) (fieldY w))
  | 0x5 => some (.sub (fieldX w) (fieldY w))
  | 0x6 => some (.shr (fieldX w) (fieldY w))
  | 0x7 => some (.subn (fieldX w) (fieldY w))
  | 0xE => some (.shl (fieldX w) (fieldY w))
  | _ => none

/-- Group a = 0xE, the key skips, selected by `yz` (R102). -/
def decodeGroupE (w : Word) : Option Instr :=
  match (fieldKK w).toNat with
  | 0x9E => some (.skp (fieldX w))
  | 0xA1 => some (.sknp (fieldX w))
  | _ => none

/-- Group a = 0xF, selected by `yz` (R103). -/
def decodeGroupF (w : Word) : Option Instr :=
  match (fieldKK w).toNat with
  | 0x07 => some (.ldRDT (fieldX w))
  | 0x0A => some (.ldRK (fieldX w))
  | 0x15 => some (.ldDTR (fieldX w))
  | 0x18 => some (.ldSTR (fieldX w))
  | 0x1E => some (.addIR (fieldX w))
  | 0x29 => some (.ldFR (fieldX w))
  | 0x33 => some (.ldBR (fieldX w))
  | 0x55 => some (.ldIIR (fieldX w))
  | 0x65 => some (.ldRII (fieldX w))
  | _ => none

/-- `decode(w)` (R96): select on `a`, refine on `xyz`, `z` or `yz`; `none` exactly for an illegal word (R104). -/
def decode (w : Word) : Option Instr :=
  match (fieldA w).toNat with
  | 0x0 => some (decodeGroup0 w)
  | 0x1 => some (.jp (fieldNNN w))
  | 0x2 => some (.call (fieldNNN w))
  | 0x3 => some (.seRB (fieldX w) (fieldKK w))
  | 0x4 => some (.sneRB (fieldX w) (fieldKK w))
  | 0x5 => decodeZ0 .seRR w
  | 0x6 => some (.ldRB (fieldX w) (fieldKK w))
  | 0x7 => some (.addRB (fieldX w) (fieldKK w))
  | 0x8 => decodeGroup8 w
  | 0x9 => decodeZ0 .sneRR w
  | 0xA => some (.ldI (fieldNNN w))
  | 0xB => some (.jpV0 (fieldNNN w))
  | 0xC => some (.rnd (fieldX w) (fieldKK w))
  | 0xD => some (.drw (fieldX w) (fieldY w) (fieldZ w))
  | 0xE => decodeGroupE w
  | _ => decodeGroupF w

/-! ## Decoding bytes -/

/-- Why bytes are no instruction: fewer than two of them, or an illegal word, which is named (R104). -/
inductive DecodeError where
  | truncated
  | illegal (w : Word)
  deriving DecidableEq, Repr

/-- The word of two bytes, the one at the lower address most significant (R60). -/
def wordOf (hi lo : Byte) : Word := hi ++ lo

/-- The instruction at the head of a list of bytes, with the bytes after it; total on any bytes (R90). -/
def decodeBytes : List Byte → Except DecodeError (Instr × List Byte)
  | hi :: lo :: rest =>
    match decode (wordOf hi lo) with
    | some i => .ok (i, rest)
    | none => .error (.illegal (wordOf hi lo))
  | [_] => .error .truncated
  | [] => .error .truncated

/-! ## Encoding (R108) -/

/-- Format NNN: `a` and the address field. -/
def packNNN (a : BitVec 4) (nnn : Addr12) : Word := a ++ nnn

/-- Format XKK, and X with its fixed low byte: `a`, a register and the low byte. -/
def packXKK (a : BitVec 4) (x : Reg) (kk : Byte) : Word := a ++ (BitVec.ofFin (w := 4) x ++ kk : BitVec 12)

/-- Formats XY (with its fixed `z`) and XYN: `a`, two registers and the low nibble. -/
def packXYZ (a : BitVec 4) (x y : Reg) (z : Fin 16) : Word :=
  a ++ (BitVec.ofFin (w := 4) x ++ (BitVec.ofFin (w := 4) y ++ BitVec.ofFin (w := 4) z : BitVec 8) : BitVec 12)

/-- `encode(i)`: the fixed bits of the instruction's row and its operands in their fields (R108). -/
def encode : Instr → Word
  | .sys nnn => packNNN 0x0 nnn
  | .cls => 0x00E0
  | .ret => 0x00EE
  | .jp nnn => packNNN 0x1 nnn
  | .call nnn => packNNN 0x2 nnn
  | .seRB x kk => packXKK 0x3 x kk
  | .sneRB x kk => packXKK 0x4 x kk
  | .seRR x y => packXYZ 0x5 x y 0x0
  | .ldRB x kk => packXKK 0x6 x kk
  | .addRB x kk => packXKK 0x7 x kk
  | .ldRR x y => packXYZ 0x8 x y 0x0
  | .or x y => packXYZ 0x8 x y 0x1
  | .and x y => packXYZ 0x8 x y 0x2
  | .xor x y => packXYZ 0x8 x y 0x3
  | .add x y => packXYZ 0x8 x y 0x4
  | .sub x y => packXYZ 0x8 x y 0x5
  | .shr x y => packXYZ 0x8 x y 0x6
  | .subn x y => packXYZ 0x8 x y 0x7
  | .shl x y => packXYZ 0x8 x y 0xE
  | .sneRR x y => packXYZ 0x9 x y 0x0
  | .ldI nnn => packNNN 0xA nnn
  | .jpV0 nnn => packNNN 0xB nnn
  | .rnd x kk => packXKK 0xC x kk
  | .drw x y n => packXYZ 0xD x y n
  | .skp x => packXKK 0xE x 0x9E
  | .sknp x => packXKK 0xE x 0xA1
  | .ldRDT x => packXKK 0xF x 0x07
  | .ldRK x => packXKK 0xF x 0x0A
  | .ldDTR x => packXKK 0xF x 0x15
  | .ldSTR x => packXKK 0xF x 0x18
  | .addIR x => packXKK 0xF x 0x1E
  | .ldFR x => packXKK 0xF x 0x29
  | .ldBR x => packXKK 0xF x 0x33
  | .ldIIR x => packXKK 0xF x 0x55
  | .ldRII x => packXKK 0xF x 0x65

/-- An instruction's two bytes as they stand in memory, high byte first (R60, R61). -/
def encodeBytes (i : Instr) : List Byte := [(encode i).extractLsb' 8 8, (encode i).extractLsb' 0 8]

/-! ## The opcode table's columns (the table under R103) -/

/-- The `mask` and `match` columns of an instruction's row, written out from the table and not from `encode`. -/
def tableRow : Instr → Word × Word
  | .sys _ => (0xF000, 0x0000)
  | .cls => (0xFFFF, 0x00E0)
  | .ret => (0xFFFF, 0x00EE)
  | .jp _ => (0xF000, 0x1000)
  | .call _ => (0xF000, 0x2000)
  | .seRB _ _ => (0xF000, 0x3000)
  | .sneRB _ _ => (0xF000, 0x4000)
  | .seRR _ _ => (0xF00F, 0x5000)
  | .ldRB _ _ => (0xF000, 0x6000)
  | .addRB _ _ => (0xF000, 0x7000)
  | .ldRR _ _ => (0xF00F, 0x8000)
  | .or _ _ => (0xF00F, 0x8001)
  | .and _ _ => (0xF00F, 0x8002)
  | .xor _ _ => (0xF00F, 0x8003)
  | .add _ _ => (0xF00F, 0x8004)
  | .sub _ _ => (0xF00F, 0x8005)
  | .shr _ _ => (0xF00F, 0x8006)
  | .subn _ _ => (0xF00F, 0x8007)
  | .shl _ _ => (0xF00F, 0x800E)
  | .sneRR _ _ => (0xF00F, 0x9000)
  | .ldI _ => (0xF000, 0xA000)
  | .jpV0 _ => (0xF000, 0xB000)
  | .rnd _ _ => (0xF000, 0xC000)
  | .drw _ _ _ => (0xF000, 0xD000)
  | .skp _ => (0xF0FF, 0xE09E)
  | .sknp _ => (0xF0FF, 0xE0A1)
  | .ldRDT _ => (0xF0FF, 0xF007)
  | .ldRK _ => (0xF0FF, 0xF00A)
  | .ldDTR _ => (0xF0FF, 0xF015)
  | .ldSTR _ => (0xF0FF, 0xF018)
  | .addIR _ => (0xF0FF, 0xF01E)
  | .ldFR _ => (0xF0FF, 0xF029)
  | .ldBR _ => (0xF0FF, 0xF033)
  | .ldIIR _ => (0xF0FF, 0xF055)
  | .ldRII _ => (0xF0FF, 0xF065)

/-- The instruction of a table word: the low `nbits` bits of `w` are the instruction's, the bits above are 0; the
word is laid out high byte first and given to the decoder (R60). -/
def decodeTableWord (nbits w : Nat) : Option Instr :=
  match decodeBytes [BitVec.ofNat 8 (w % 2 ^ nbits / 256), BitVec.ofNat 8 (w % 2 ^ nbits)] with
  | .ok (i, _) => some i
  | .error _ => none

end Sys2Proof
end

