-- ==== Sys2Proof/Config.lean ====
section
/-! DEFINITION. What the spec fixes for the hardware (R6, R7), the one free value (the random byte of RND, R47, R176)
and the default of the parameter FONT (R46). -/

namespace Sys2Proof

/-- MEM_SIZE: 4096 bytes, addresses 0x000 to 0xFFF (R6). -/
abbrev Config.memSize : Nat := 4096

/-- The last address of main memory, 0xFFF: the bound of every data access (R70). -/
abbrev Config.lastAddr : Nat := 0xFFF

/-- The last address an instruction can be fetched at, MEM_SIZE - 2 (R69, R121). -/
abbrev Config.lastFetch : Nat := 0xFFE

/-- STACK_DEPTH: sixteen return addresses (R6, R38). -/
abbrev Config.stackDepth : Nat := 16

/-- NKEYS: sixteen keys (R6). -/
abbrev Config.nKeys : Nat := 16

/-- PROGRAM_BASE, where programs conventionally load: no check of the core uses it (R7). -/
abbrev Config.programBase : Word := 0x200

/-- FONT_BASE: the glyph of digit d stands at 5 × d (R7, R46). -/
abbrev Config.fontBase : Nat := 0

/-- FREE VALUE. The byte the environment's random source gives at the n-th draw (R47, R176, decision D17). It has no
body: nothing constrains one draw, and nothing relates two. Safe: every sequence of draws is allowed (log 2). -/
opaque Config.rndDraw : Nat → Byte

/-- Glyphs 0 to 7 of the default FONT, five rows each (R46). -/
def Config.fontLow : Vector Byte 40 := #v[
  0xF0, 0x90, 0x90, 0x90, 0xF0,   0x20, 0x60, 0x20, 0x20, 0x70,
  0xF0, 0x10, 0xF0, 0x80, 0xF0,   0xF0, 0x10, 0xF0, 0x10, 0xF0,
  0x90, 0x90, 0xF0, 0x10, 0x10,   0xF0, 0x80, 0xF0, 0x10, 0xF0,
  0xF0, 0x80, 0xF0, 0x90, 0xF0,   0xF0, 0x10, 0x20, 0x40, 0x40]

/-- Glyphs 8 to F of the default FONT (R46). -/
def Config.fontHigh : Vector Byte 40 := #v[
  0xF0, 0x90, 0xF0, 0x90, 0xF0,   0xF0, 0x90, 0xF0, 0x10, 0xF0,
  0xF0, 0x90, 0xF0, 0x90, 0x90,   0xE0, 0x90, 0xE0, 0x90, 0xE0,
  0xF0, 0x80, 0x80, 0x80, 0xF0,   0xE0, 0x90, 0x90, 0x90, 0xE0,
  0xF0, 0x80, 0xF0, 0x80, 0xF0,   0xF0, 0x80, 0xF0, 0x80, 0x80]

/-- The default of the parameter FONT, 80 bytes, glyph 0 first (R46). PRESUMED: the spec itself takes these bytes from
general knowledge (decision D21, log 6); loading takes the font as an argument, so no rule of the core rests on them. -/
def Config.defaultFont : Vector Byte 80 := Config.fontLow ++ Config.fontHigh

end Sys2Proof
end

