-- ==== Sys2Proof/Machine/State.lean ====
section
/-! DEFINITION. The state of the machine (spec/10_state.md R49), the events that change it (R15), the reasons a step
can stop, and the state after reset (R50). -/

namespace Sys2Proof.Machine

/-- The display: 32 rows of 64 pixels, `pix[xx][yy]` being column `xx` of row `yy` (R40, R41; log 5). -/
abbrev Display := Vector (Vector Bool 64) 32

/-- The events the front end can issue to a running core (R15, R235 to R240). The loads of R241 are no events of a
running core, and `at` (R239) is a query that changes nothing. -/
inductive Event where
  | step                   -- execute one instruction (R120 to R127)
  | tick                   -- the 60 Hz tick (R231)
  | keyDown (k : Key)      -- a key is pressed (R237)
  | keyUp (k : Key)        -- a key is released (R236)
  | jump (addr : Word)     -- PC is set from outside (R240)
  deriving DecidableEq, Repr

/-- The whole state (R49): every field down to `pix` is the spec's; `draws` and `schedule` are the model's own. -/
structure State where
  /-- V0 to VF (R20). -/
  v : Vector Byte 16
  /-- I, the address register (R29). -/
  i : Word
  /-- PC, the program counter (R23). -/
  pc : Word
  /-- SP, the number of entries on the call stack (R30). -/
  sp : Byte
  /-- The call stack, sixteen return addresses outside main memory (R38). -/
  stack : Vector Word 16
  /-- DT, the delay timer (R31). -/
  dt : Byte
  /-- ST, the sound timer, an output that never counts down (R32, R234). -/
  st : Byte
  /-- The keypad: `key[k]` is true while key k is held down (R39). -/
  key : Vector Bool 16
  /-- The wait-for-key marker: the register awaiting a key press (R33). -/
  wait : Option Reg
  /-- Main memory in canonical form: addresses strictly rising, no listed byte is 0 (R44; log 4). -/
  mem : List Host.Cell
  /-- The display (R40). -/
  pix : Display
  /-- The model's own: how many RND draws have been taken, the argument of `Config.rndDraw` (R47; log 2). -/
  draws : Nat
  /-- The model's own: the events the front end issues next, oldest first; when none is listed the next event is a
  `step` (R242; log 1). -/
  schedule : List Event
  deriving DecidableEq, Repr

/-- The five faults (R210), each the result of the `step` event that raises it. There is no vector, no handler and no
saved register (R219): what a fault leaves is a state, which the constructor carries as `left`, and from which the
caller may go on (R221). Every one is safe: the spec itself ends the step there (log 3). -/
inductive Fault where
  /-- Raised by the decode stage of a step on an illegal word, which it names (R123, R211); `left` is the state before
  the step. Safe. -/
  | decodeFailure (w : Word) (left : State)
  /-- Raised by the fetch stage of a step when PC > 0xFFE, `left` being the state before the step (R121), and by LD_B_R,
  LD_II_R, LD_R_II and DRW when their range passes 0xFFF, `left` having only PC advanced (R212). Safe. -/
  | outOfBounds (left : State)
  /-- Raised by CALL with sixteen entries on the stack; in `left` only PC is advanced (R213). Safe. -/
  | stackOverflow (left : State)
  /-- Raised by RET with an empty stack; in `left` only PC is advanced (R214). Safe. -/
  | stackUnderflow (left : State)
  /-- Raised by SKP and SKNP when VX is 16 or more; in `left` only PC is advanced (R215). Safe. -/
  | invalidKeyIndex (left : State)
  deriving DecidableEq, Repr

/-- What the model does not run, by name. -/
inductive Refusal where
  /-- Raised by `exec` for an instruction that has no meaning yet. Safe. -/
  | notModelled (mnemonic : String)
  /-- Raised by RET when SP is 17 to 255, values the spec says are unreachable (R30), for which it names no stack
  entry. Safe: no run reaches it (log 8). -/
  | spOutOfRange
  /-- Raised by the loader for an image that does not fit in memory, which is outside the spec (R258). Safe (log 7). -/
  | imageTooLong
  deriving DecidableEq, Repr

/-- The outcome of an event. -/
abbrev Result := Host.Outcome State Fault Refusal

/-- The machine right after reset (R50, R250): every register, timer, key, stack entry, memory byte and pixel is zero
and no wait is set; `draws` and `schedule` are the model's own (logs 1 and 2). -/
def State.reset : State where
  v := Vector.replicate 16 0
  i := 0x0000
  pc := 0x0000
  sp := 0x00
  stack := Vector.replicate 16 0
  dt := 0x00
  st := 0x00
  key := Vector.replicate 16 false
  wait := none
  mem := []
  pix := Vector.replicate 32 (Vector.replicate 64 false)
  draws := 0
  schedule := []

end Sys2Proof.Machine
end

