-- ==== Sys2Proof/Machine/Ops.lean ====
section
/-! DEFINITION. The named operations over registers, memory, the call stack, the program counter and the display that
every meaning is built from, and the one way a fault is raised (spec/00_scope.md R12, R14; spec/45_display.md R190). -/

namespace Sys2Proof.Machine

/-! ## Raising a fault (R14, R219) -/

/-- `raise F`: the step ends with the fault `f`, leaving the state `s` as it is. An instruction raises before its first
write, so only the PC advance has happened in `s` (R219). -/
def raise (f : State → Fault) (s : State) : Result := .fault (f s)

/-- The state a fault leaves, from which the caller may issue further events (R219, R221). -/
def Fault.left : Fault → State
  | .decodeFailure _ s => s
  | .outOfBounds s => s
  | .stackOverflow s => s
  | .stackUnderflow s => s
  | .invalidKeyIndex s => s

/-- The spec's numbers of the five kinds (R210 to R215). -/
def Fault.code : Fault → Nat
  | .decodeFailure _ _ => 1
  | .outOfBounds _ => 2
  | .stackOverflow _ => 3
  | .stackUnderflow _ => 4
  | .invalidKeyIndex _ => 5

/-- The state an event leaves, whatever its result (R126, R219); none where the model refuses. -/
def stateLeft : Result → Option State
  | .next s => some s
  | .fault f => some f.left
  | .refused _ => none

/-! ## Main memory (R12, R44, R66) -/

/-- What a byte that is not listed reads as: the reset contents of memory (R50; log 4). -/
def Memory.unlisted : Byte := 0x00

/-- The canonical form: addresses strictly rising and inside memory, no listed byte equal to the unlisted one. -/
abbrev Memory.wf (m : List Host.Cell) : Prop :=
  m.Pairwise (fun c d => c.1 < d.1) ∧ ∀ c ∈ m, c.1 < Config.memSize ∧ c.2 ≠ Memory.unlisted

/-- `MemRead(a, 1)`, defined for addresses the caller has checked (R12). -/
def Memory.read : List Host.Cell → Nat → Byte
  | [], _ => Memory.unlisted
  | (b, x) :: m, a => if a = b then x else Memory.read m a

/-- `MemWrite(a, 1, x)`, for addresses the caller has checked (R12), keeping the canonical form. -/
def Memory.write (m : List Host.Cell) (a : Nat) (x : Byte) : List Host.Cell :=
  match m with
  | [] => if x = Memory.unlisted then [] else [(a, x)]
  | (b, y) :: rest =>
    if a < b then
      if x = Memory.unlisted then (b, y) :: rest else (a, x) :: (b, y) :: rest
    else if a = b then
      if x = Memory.unlisted then rest else (a, x) :: rest
    else (b, y) :: Memory.write rest a x

/-- The `n` bytes from `a` on, lowest address first (R61). -/
def Memory.readBytes (m : List Host.Cell) (a n : Nat) : List Byte :=
  (List.range n).map fun k => Memory.read m (a + k)

/-- A list of bytes written from `a` on, lowest address first (R61). -/
def Memory.writeBytes (m : List Host.Cell) (a : Nat) : List Byte → List Host.Cell
  | [] => m
  | x :: xs => Memory.writeBytes (Memory.write m a x) (a + 1) xs

/-- `MemRead(a, 2)`: big-endian, used only by instruction fetch (R12, R60). -/
def Memory.readWord (m : List Host.Cell) (a : Nat) : Word := wordOf (Memory.read m a) (Memory.read m (a + 1))

/-- The bound of R70 on a data access of `n` bytes from `a` on: natural numbers, never wrapping; an access of no bytes
is always inside. -/
def inMemory (a n : Nat) : Bool := n = 0 || a + n - 1 ≤ Config.lastAddr

/-- The `n` bytes from `a` on if the whole range is inside memory, checked before the first access (R65, R180). -/
def withBytes (a n : Nat) (s : State) (k : List Byte → Result) : Result :=
  if inMemory a n then k (Memory.readBytes s.mem a n) else raise .outOfBounds s

/-- Store a list of bytes from `a` on if the whole range is inside memory; otherwise no byte is written (R65, R180). -/
def storeBytes (a : Nat) (xs : List Byte) (s : State) : Result :=
  if inMemory a xs.length then .next { s with mem := Memory.writeBytes s.mem a xs } else raise .outOfBounds s

/-! ## Registers (R11, R20) -/

/-- `V[x]`. -/
def State.reg (s : State) (x : Reg) : Byte := s.v[x.val]

/-- `V[x] <- b`. No register is hard-wired (R20). -/
def State.setReg (s : State) (x : Reg) (b : Byte) : State := { s with v := s.v.set x.val b }

/-- VF, register 15, the only flag (R27). -/
abbrev vF : Reg := 15

/-- V0 to VX, lowest first: the block of LD_II_R (R21). -/
def State.regBlock (s : State) (x : Reg) : List Byte := s.v.toList.take (x.val + 1)

/-- `V[k]`, `V[k+1]`, ... take the bytes of a list in turn: the block of LD_R_II (R21). -/
def State.setRegBlock (s : State) (k : Nat) : List Byte → State
  | [] => s
  | b :: bs => if h : k < 16 then (s.setReg ⟨k, h⟩ b).setRegBlock (k + 1) bs else s

/-- `I <- w`. -/
def State.setI (s : State) (w : Word) : State := { s with i := w }

/-- `DT <- b`. -/
def State.setDT (s : State) (b : Byte) : State := { s with dt := b }

/-- `ST <- b`. -/
def State.setST (s : State) (b : Byte) : State := { s with st := b }

/-- `wait <- w`. -/
def State.setWait (s : State) (w : Option Reg) : State := { s with wait := w }

/-! ## The program counter (R24, R124, R150) -/

/-- `PC <- t`. -/
def State.setPC (s : State) (t : Word) : State := { s with pc := t }

/-- The advance every executed instruction begins with, `PC <- a + 2` (R124). -/
def State.advance (s : State) : State := s.setPC (s.pc + 2)

/-- `skip`: two more bytes, after the advance (R150). -/
def State.skip (s : State) : State := s.setPC (s.pc + 2)

/-- Skip when the condition holds (R150). -/
def State.skipIf (s : State) (c : Bool) : State := if c then s.skip else s

/-- The fetch stage's bound, PC ≤ 0xFFE (R121). -/
def State.canFetch (s : State) : Bool := s.pc.toNat ≤ Config.lastFetch

/-- The word at PC (R122). -/
def State.fetchWord (s : State) : Word := Memory.readWord s.mem s.pc.toNat

/-! ## The call stack (R30, R38) -/

/-- `stack[SP] <- w` and `SP <- SP + 1`, or StackOverflow when SP ≥ 16, before any write (R144); then go on. -/
def pushThen (w : Word) (s : State) (k : State → State) : Result :=
  if h : s.sp.toNat < 16 then .next (k { s with stack := s.stack.set s.sp.toNat w, sp := s.sp + 1 })
  else raise .stackOverflow s

/-- `SP <- SP - 1` and the entry at the new SP, which is not erased, or StackUnderflow when SP = 0 (R142); then go on.
SP of 17 to 255 is unreachable (R30) and refused by name (log 8). -/
def popThen (s : State) (k : Word → State → State) : Result :=
  if s.sp = 0 then raise .stackUnderflow s
  else if h : s.sp.toNat - 1 < 16 then .next (k s.stack[s.sp.toNat - 1] { s with sp := s.sp - 1 })
  else .refused .spOutOfRange

/-! ## The keypad (R39) -/

/-- `key[k]`. -/
def State.keyAt (s : State) (k : Key) : Bool := s.key[k.val]

/-- The key a register's whole byte names, or InvalidKeyIndex when it is 16 or more: it is not masked (R155); then
go on. -/
def keyThen (b : Byte) (s : State) (k : Key → State) : Result :=
  if h : b.toNat < 16 then .next (k ⟨b.toNat, h⟩) else raise .invalidKeyIndex s

/-! ## The display and the blitter (R40, R190) -/

/-- `pix[xx][yy]`. -/
def Display.pixel (d : Display) (xx : Fin 64) (yy : Fin 32) : Bool := d[yy.val][xx.val]

/-- `pix[xx][yy] <- b`. -/
def Display.setPixel (d : Display) (xx : Fin 64) (yy : Fin 32) (b : Bool) : Display :=
  d.set yy.val (d[yy.val].set xx.val b)

/-- Every pixel 0 (R191). -/
def Display.clear : Display := Vector.replicate 32 (Vector.replicate 64 false)

/-- A column, wrapped (R193). -/
def wrapX (n : Nat) : Fin 64 := Fin.ofNat 64 n

/-- A row, wrapped (R193). -/
def wrapY (n : Nat) : Fin 32 := Fin.ofNat 32 n

/-- One cell of the blitter: XOR the sprite bit in, and collide when the old pixel and the bit are both 1 (R190). -/
def blitPixel (xx : Fin 64) (yy : Fin 32) (b : Bool) (dc : Display × Bool) : Display × Bool :=
  (Display.setPixel dc.1 xx yy (Display.pixel dc.1 xx yy ^^ b), dc.2 || (b && Display.pixel dc.1 xx yy))

/-- One sprite row: eight pixels from column `x0` on, bit 7 the leftmost (R190). -/
def blitRow (x0 y : Nat) (byte : Byte) (dc : Display × Bool) : Display × Bool :=
  (List.range 8).foldl (fun dc col => blitPixel (wrapX (x0 + col)) (wrapY y) (byte.getLsbD (7 - col)) dc) dc

/-- The sprite's rows, from row `y0` downwards (R190). -/
def blitRows (x0 y0 : Nat) : List Byte → Display × Bool → Display × Bool
  | [], dc => dc
  | b :: bs, dc => blitRows x0 (y0 + 1) bs (blitRow x0 y0 b dc)

/-- `draw(x0, y0, bytes)`: the new display and the collision bit (R190). -/
def draw (x0 y0 : Nat) (bytes : List Byte) (d : Display) : Display × Bool := blitRows x0 y0 bytes (d, false)

end Sys2Proof.Machine
end

