-- ==== Sys2Proof/Machine/Operands.lean ====
section
/-! DEFINITION. The operand forms (spec/30_encoding.md R94, R95; spec/44_index_memory.md R180): zero-extended
immediates, I-relative addresses and the decimal digits of a byte. -/

namespace Sys2Proof.Machine

/-- `zext_16(nnn)`: bits 15 to 12 become 0 (R94). -/
def zextAddr (nnn : Addr12) : Word := nnn.setWidth 16

/-- `zext_16(b)`. -/
def zextByte (b : Byte) : Word := b.setWidth 16

/-- The base address of an I-relative access, a natural number: no wrap at 12 or 16 bits (R13, R180). -/
def State.base (s : State) : Nat := s.i.toNat

/-- Hundreds, tens and ones of a byte, in the order they are stored (R184). -/
def decimalDigits (b : Byte) : List Byte :=
  [BitVec.ofNat 8 (b.toNat / 100), BitVec.ofNat 8 (b.toNat / 10 % 10), BitVec.ofNat 8 (b.toNat % 10)]

end Sys2Proof.Machine
end

