-- ==== Sys2Proof/Machine/Control.lean ====
section
/-! DEFINITION. Control transfer (spec/41_control_flow.md): SYS, RET, JP, CALL, JP_V0. In every meaning of the machine
PC already holds `a + 2`, as in the spec's pseudocode (R124, R130; log 9). -/

namespace Sys2Proof.Machine

/-- SYS(nnn): nothing after the advance (R141). -/
def execSys (_nnn : Addr12) (s : State) : Result := .next s

/-- RET: pop the return address into PC, no 2 added (R142). -/
def execRet (s : State) : Result := popThen s fun t s' => s'.setPC t

/-- JP(nnn): `PC <- zext_16(nnn)` (R143). -/
def execJp (nnn : Addr12) (s : State) : Result := .next (s.setPC (zextAddr nnn))

/-- CALL(nnn): push PC, which is the address after the CALL, and go to nnn (R144). -/
def execCall (nnn : Addr12) (s : State) : Result := pushThen s.pc s fun s' => s'.setPC (zextAddr nnn)

/-- JP_V0(nnn): `PC <- zext_16(nnn) + zext_16(V[0])` (R145). -/
def execJpV0 (nnn : Addr12) (s : State) : Result := .next (s.setPC (zextAddr nnn + zextByte (s.reg 0)))

end Sys2Proof.Machine
end

