-- ==== Sys2Proof/Machine/IndexMemory.lean ====
section
/-! DEFINITION. Address register and memory (spec/44_index_memory.md). A memory instruction checks its whole range
before its first access (R180) and never changes I (R186). -/

namespace Sys2Proof.Machine

/-- LD_I(nnn): `I <- zext_16(nnn)` (R181). -/
def execLdI (nnn : Addr12) (s : State) : Result := .next (s.setI (zextAddr nnn))

/-- ADD_I_R(x): `I <- (I + VX) mod 2^16`, VF not written (R182). -/
def execAddIR (x : Reg) (s : State) : Result := .next (s.setI (s.i + zextByte (s.reg x)))

/-- LD_F_R(x): `I <- 5 × VX`, VX not masked (R183). -/
def execLdFR (x : Reg) (s : State) : Result := .next (s.setI (5 * zextByte (s.reg x)))

/-- LD_B_R(x): the decimal digits of VX at I, I+1, I+2 (R184). -/
def execLdBR (x : Reg) (s : State) : Result := storeBytes s.base (decimalDigits (s.reg x)) s

/-- LD_II_R(x): V0 to VX, inclusive, to memory at I (R185). -/
def execLdIIR (x : Reg) (s : State) : Result := storeBytes s.base (s.regBlock x) s

/-- LD_R_II(x): V0 to VX, inclusive, from memory at I (R187). -/
def execLdRII (x : Reg) (s : State) : Result :=
  withBytes s.base (x.val + 1) s fun bytes => .next (s.setRegBlock 0 bytes)

end Sys2Proof.Machine
end

