-- ==== Sys2Proof/Machine/Flags.lean ====
section
/-! DEFINITION. The arithmetic laws and every flag computation (spec/43_load_alu.md R160, R161): the exact result over
the naturals, narrowed to a byte, and the bit that goes to VF. -/

namespace Sys2Proof.Machine

/-- The byte VF holds for a flag: 0x00 or 0x01 (R27). -/
def flagByte (f : Bool) : Byte := if f then 1 else 0

/-- `(A + B) mod 256` (R160). -/
def addByte (a b : Byte) : Byte := BitVec.ofNat 8 (a.toNat + b.toNat)

/-- Carry-out: `A + B ≥ 256` (R160). -/
def carryOut (a b : Byte) : Bool := a.toNat + b.toNat ≥ 256

/-- `(A + 256 - B) mod 256` (R160). -/
def subByte (a b : Byte) : Byte := BitVec.ofNat 8 (a.toNat + 256 - b.toNat)

/-- Not-borrow: `A ≥ B` (R160). -/
def notBorrow (a b : Byte) : Bool := a.toNat ≥ b.toNat

/-- A byte shifted right by one, bit 7 becoming 0 (R170). -/
def shiftRight1 (a : Byte) : Byte := a >>> 1

/-- The bit a right shift moves out: old bit 0 (R170). -/
def outRight (a : Byte) : Bool := a.getLsbD 0

/-- A byte shifted left by one, bit 0 becoming 0 (R172). -/
def shiftLeft1 (a : Byte) : Byte := a <<< 1

/-- The bit a left shift moves out: old bit 7 (R172). -/
def outLeft (a : Byte) : Bool := a.getLsbD 7

/-- The two writes of a flag-writing instruction, in this order: `V[x] <- result`, then `V[15] <- flag`, so that with
x = 15 the flag is what VF holds (R161). -/
def State.setResultFlag (s : State) (x : Reg) (result : Byte) (flag : Bool) : State :=
  (s.setReg x result).setReg vF (flagByte flag)

end Sys2Proof.Machine
end

