-- ==== Sys2Proof/Machine/LoadAlu.lean ====
section
/-! DEFINITION. Register load, arithmetic and logic (spec/43_load_alu.md). Every operand is read from the state the
meaning starts in; none of these writes PC, touches memory or raises a fault (R161). -/

namespace Sys2Proof.Machine

/-- LD_R_B(x, kk): `V[x] <- kk` (R162). -/
def execLdRB (x : Reg) (kk : Byte) (s : State) : Result := .next (s.setReg x kk)

/-- ADD_R_B(x, kk): add, VF the carry-out (R163). -/
def execAddRB (x : Reg) (kk : Byte) (s : State) : Result :=
  .next (s.setResultFlag x (addByte (s.reg x) kk) (carryOut (s.reg x) kk))

/-- LD_R_R(x, y): `V[x] <- V[y]` (R164). -/
def execLdRR (x y : Reg) (s : State) : Result := .next (s.setReg x (s.reg y))

/-- OR(x, y): VF is not written (R165). -/
def execOr (x y : Reg) (s : State) : Result := .next (s.setReg x (s.reg x ||| s.reg y))

/-- AND(x, y): VF is not written (R166). -/
def execAnd (x y : Reg) (s : State) : Result := .next (s.setReg x (s.reg x &&& s.reg y))

/-- XOR(x, y): VF is not written (R167). -/
def execXor (x y : Reg) (s : State) : Result := .next (s.setReg x (s.reg x ^^^ s.reg y))

/-- ADD(x, y): add, VF the carry-out (R168). -/
def execAdd (x y : Reg) (s : State) : Result :=
  .next (s.setResultFlag x (addByte (s.reg x) (s.reg y)) (carryOut (s.reg x) (s.reg y)))

/-- SUB(x, y): VX - VY, VF the not-borrow (R169). -/
def execSub (x y : Reg) (s : State) : Result :=
  .next (s.setResultFlag x (subByte (s.reg x) (s.reg y)) (notBorrow (s.reg x) (s.reg y)))

/-- SHR(x, y): VX right by one, VF the bit shifted out; VY is not read (R170). -/
def execShr (x _y : Reg) (s : State) : Result :=
  .next (s.setResultFlag x (shiftRight1 (s.reg x)) (outRight (s.reg x)))

/-- SUBN(x, y): VY - VX, VF the not-borrow (R171). -/
def execSubn (x y : Reg) (s : State) : Result :=
  .next (s.setResultFlag x (subByte (s.reg y) (s.reg x)) (notBorrow (s.reg y) (s.reg x)))

/-- SHL(x, y): VX left by one, VF the bit shifted out; VY is not read (R172). -/
def execShl (x _y : Reg) (s : State) : Result :=
  .next (s.setResultFlag x (shiftLeft1 (s.reg x)) (outLeft (s.reg x)))

/-- RND(x, kk): `V[x] <- rnd & kk`, `rnd` being the next free byte, and the draw counter moves on (R176; log 2). -/
def execRnd (x : Reg) (kk : Byte) (s : State) : Result :=
  .next { s.setReg x (Config.rndDraw s.draws &&& kk) with draws := s.draws + 1 }

end Sys2Proof.Machine
end

