-- ==== Sys2Proof/Machine/Screen.lean ====
section
/-! DEFINITION. Display instructions (spec/45_display.md): CLS and DRW over the blitter of Ops.lean. -/

namespace Sys2Proof.Machine

/-- CLS: every pixel 0 (R191). -/
def execCls (s : State) : Result := .next { s with pix := Display.clear }

/-- DRW(x, y, n): n sprite bytes from I, drawn at (VX, VY); VF the collision, written last and also when n = 0 (R192). -/
def execDrw (x y : Reg) (n : Fin 16) (s : State) : Result :=
  withBytes s.base n.val s fun bytes =>
    let dc := draw (s.reg x).toNat (s.reg y).toNat bytes s.pix
    .next ({ s with pix := dc.1 }.setReg vF (flagByte dc.2))

end Sys2Proof.Machine
end

