-- ==== Sys2Proof/Machine/Skips.lean ====
section
/-! DEFINITION. Conditional skips (spec/42_skips.md): SE_R_B, SNE_R_B, SE_R_R, SNE_R_R, SKP, SKNP. -/

namespace Sys2Proof.Machine

/-- SE_R_B(x, kk): skip if VX = kk (R151). -/
def execSeRB (x : Reg) (kk : Byte) (s : State) : Result := .next (s.skipIf (s.reg x == kk))

/-- SNE_R_B(x, kk): skip if VX ≠ kk (R152). -/
def execSneRB (x : Reg) (kk : Byte) (s : State) : Result := .next (s.skipIf (s.reg x != kk))

/-- SE_R_R(x, y): skip if VX = VY (R153). -/
def execSeRR (x y : Reg) (s : State) : Result := .next (s.skipIf (s.reg x == s.reg y))

/-- SNE_R_R(x, y): skip if VX ≠ VY (R154). -/
def execSneRR (x y : Reg) (s : State) : Result := .next (s.skipIf (s.reg x != s.reg y))

/-- SKP(x): skip if the key VX names is down; InvalidKeyIndex when VX ≥ 16 (R155). -/
def execSkp (x : Reg) (s : State) : Result := keyThen (s.reg x) s fun k => s.skipIf (s.keyAt k)

/-- SKNP(x): skip if the key VX names is up; InvalidKeyIndex when VX ≥ 16 (R156). -/
def execSknp (x : Reg) (s : State) : Result := keyThen (s.reg x) s fun k => s.skipIf (!s.keyAt k)

end Sys2Proof.Machine
end

