-- ==== Sys2Proof/Machine/TimersKeys.lean ====
section
/-! DEFINITION. Timer and keypad instructions (spec/46_timers_keys.md): LD_R_DT, LD_R_K, LD_DT_R, LD_ST_R. -/

namespace Sys2Proof.Machine

/-- LD_R_DT(x): `V[x] <- DT` (R200). -/
def execLdRDT (x : Reg) (s : State) : Result := .next (s.setReg x s.dt)

/-- LD_R_K(x): `wait <- some(x)`; VX is written by the `key_down` that resolves the wait (R201). -/
def execLdRK (x : Reg) (s : State) : Result := .next (s.setWait (some x))

/-- LD_DT_R(x): `DT <- V[x]` (R202). -/
def execLdDTR (x : Reg) (s : State) : Result := .next (s.setDT (s.reg x))

/-- LD_ST_R(x): `ST <- V[x]` (R203). -/
def execLdSTR (x : Reg) (s : State) : Result := .next (s.setST (s.reg x))

end Sys2Proof.Machine
end

