-- ==== Sys2Proof/Machine/Dispatch.lean ====
section
/-! DEFINITION. `exec`: one arm per constructor, each one call of that instruction's meaning. The state `exec` is given
is the one after the advance of R124, as in the pseudocode of the spec's instruction rules (R130; log 9). -/

namespace Sys2Proof.Machine

def exec (i : Instr) (s : State) : Host.Outcome State Fault Refusal :=
  match i with
  | .sys nnn => Sys2Proof.Machine.execSys nnn s
  | .cls => Sys2Proof.Machine.execCls s
  | .ret => Sys2Proof.Machine.execRet s
  | .jp nnn => Sys2Proof.Machine.execJp nnn s
  | .call nnn => Sys2Proof.Machine.execCall nnn s
  | .seRB x kk => Sys2Proof.Machine.execSeRB x kk s
  | .sneRB x kk => Sys2Proof.Machine.execSneRB x kk s
  | .seRR x y => Sys2Proof.Machine.execSeRR x y s
  | .ldRB x kk => Sys2Proof.Machine.execLdRB x kk s
  | .addRB x kk => Sys2Proof.Machine.execAddRB x kk s
  | .ldRR x y => Sys2Proof.Machine.execLdRR x y s
  | .or x y => Sys2Proof.Machine.execOr x y s
  | .and x y => Sys2Proof.Machine.execAnd x y s
  | .xor x y => Sys2Proof.Machine.execXor x y s
  | .add x y => Sys2Proof.Machine.execAdd x y s
  | .sub x y => Sys2Proof.Machine.execSub x y s
  | .shr x y => Sys2Proof.Machine.execShr x y s
  | .subn x y => Sys2Proof.Machine.execSubn x y s
  | .shl x y => Sys2Proof.Machine.execShl x y s
  | .sneRR x y => Sys2Proof.Machine.execSneRR x y s
  | .ldI nnn => Sys2Proof.Machine.execLdI nnn s
  | .jpV0 nnn => Sys2Proof.Machine.execJpV0 nnn s
  | .rnd x kk => Sys2Proof.Machine.execRnd x kk s
  | .drw x y n => Sys2Proof.Machine.execDrw x y n s
  | .skp x => Sys2Proof.Machine.execSkp x s
  | .sknp x => Sys2Proof.Machine.execSknp x s
  | .ldRDT x => Sys2Proof.Machine.execLdRDT x s
  | .ldRK x => Sys2Proof.Machine.execLdRK x s
  | .ldDTR x => Sys2Proof.Machine.execLdDTR x s
  | .ldSTR x => Sys2Proof.Machine.execLdSTR x s
  | .addIR x => Sys2Proof.Machine.execAddIR x s
  | .ldFR x => Sys2Proof.Machine.execLdFR x s
  | .ldBR x => Sys2Proof.Machine.execLdBR x s
  | .ldIIR x => Sys2Proof.Machine.execLdIIR x s
  | .ldRII x => Sys2Proof.Machine.execLdRII x s

end Sys2Proof.Machine
end

