-- ==== Sys2Proof/Machine/Events.lean ====
section
/-! DEFINITION. What reaches the core from outside (spec/60_exceptions.md R231 to R242, spec/70_reset_and_hazards.md
R257 to R259): the events other than `step`, the two outputs, and the loads of the boot sequence. -/

namespace Sys2Proof.Machine

/-! ## Events (R231, R236, R237, R240) -/

/-- `tick`: `if DT > 0: DT <- DT - 1`, and nothing else; ST is not touched (R231, R232). -/
def State.tick (s : State) : State := if s.dt = 0 then s else s.setDT (s.dt - 1)

/-- `key_down(k)`: the key is down; a press edge resolves a wait by storing the key number in the awaiting register
(R237). -/
def State.keyDown (s : State) (k : Key) : State :=
  let s' := { s with key := s.key.set k.val true }
  match s.wait with
  | some r => if s.keyAt k then s' else (s'.setReg r (BitVec.ofNat 8 k.val)).setWait none
  | none => s'

/-- `key_up(k)`: the key is up, and nothing else (R236). -/
def State.keyUp (s : State) (k : Key) : State := { s with key := s.key.set k.val false }

/-- `jump(addr)`: `PC <- addr`, and nothing else, not checked (R240). -/
def State.jump (s : State) (addr : Word) : State := s.setPC addr

/-! ## Outputs (R234, R239) -/

/-- `at(xx, yy)`: the pixel, at any time between events (R239). -/
def State.displayAt (s : State) (xx : Fin 64) (yy : Fin 32) : Bool := Display.pixel s.pix xx yy

/-- The ST output (R234). -/
def State.soundOutput (s : State) : Byte := s.st

/-- The condition "sound on", ST > 0 (R234). -/
def State.soundOn (s : State) : Bool := s.st != 0

/-! ## Boot (R257 to R259). The loader runs before the first `step` (R241): no event of a running core reaches it. -/

/-- `load_font()`: the 80 bytes of FONT, a parameter, from 0x000 on, glyph d at 5 × d (R46, R257; log 6). -/
def State.loadFont (font : Vector Byte 80) (s : State) : State :=
  { s with mem := Memory.writeBytes s.mem Config.fontBase font.toList }

/-- `load_program(addr, bytes)`, the raw form: byte j at `addr + j`. An image that does not fit is outside the spec
(R258; log 7). -/
def State.loadBytes (addr : Nat) (bytes : List Byte) (s : State) : Result :=
  if addr + bytes.length ≤ Config.memSize then .next { s with mem := Memory.writeBytes s.mem addr bytes }
  else .refused .imageTooLong

/-- `load_program(addr, instructions)`: instruction j at `addr + 2j`, high byte first (R61, R258). -/
def State.loadProgram (addr : Nat) (is : List Instr) (s : State) : Result :=
  s.loadBytes addr (is.flatMap encodeBytes)

/-- Reset, then the boot sequence in its order: font, program bytes, entry address (R250, R257 to R259). -/
def bootBytes (font : Vector Byte 80) (addr : Nat) (bytes : List Byte) (entry : Word) : Result :=
  match (State.reset.loadFont font).loadBytes addr bytes with
  | .next s => .next (s.jump entry)
  | .fault f => .fault f
  | .refused r => .refused r

end Sys2Proof.Machine
end

