-- ==== Sys2Proof/Machine/Cycle.lean ====
section
/-! DEFINITION. The `step` event (spec/40_execution_cycle.md R120 to R127) and the delivery of any event (R15). -/

namespace Sys2Proof.Machine

/-- The `step` event (R127): a wait makes it a no-op (R120); then the PC bound (R121), the fetch (R122), the decode
(R123), the advance (R124) and the instruction's own rule (R125), in this order. -/
def stepEvent (s : State) : Result :=
  match s.wait with
  | some _ => .next s
  | none =>
    if s.canFetch then
      match decode s.fetchWord with
      | some i => exec i s.advance
      | none => raise (.decodeFailure s.fetchWord) s
    else raise .outOfBounds s

/-- One event of the front end (R15). Only `step` can fail (R14, R218). -/
def deliver (e : Event) (s : State) : Result :=
  match e with
  | .step => stepEvent s
  | .tick => .next s.tick
  | .keyDown k => .next (s.keyDown k)
  | .keyUp k => .next (s.keyUp k)
  | .jump addr => .next (s.jump addr)

/-- The next event of the run and the state it meets: the oldest event the front end has listed, and a `step` when it
has listed none (R242; log 1). -/
def nextEvent (s : State) : Event × State :=
  match s.schedule with
  | [] => (.step, s)
  | e :: rest => (e, { s with schedule := rest })

/-- A whole sequence of events, each going on from the state the one before left, also after a fault (R221 (c)); it
ends early only where the model refuses. The faults come out with the state, oldest first (R126). -/
def deliverAll : List Event → State → Option (State × List Fault)
  | [], s => some (s, [])
  | e :: es, s =>
    match deliver e s with
    | .next s' => deliverAll es s'
    | .fault f => (deliverAll es f.left).map fun r => (r.1, f :: r.2)
    | .refused _ => none

/-- Where `withFetchWord` puts an instruction: at PC if an instruction can be fetched there, else at 0x200. -/
def placeFor (s : State) : Word := if s.canFetch then s.pc else Config.programBase

/-- The two bytes of a table word at PC, with no wait set and no event listed, so that the next event is a `step` that
fetches it (log 10). -/
def placeWord (s : State) (nbits w : Nat) : State :=
  { s with
    pc := placeFor s
    wait := none
    schedule := []
    mem := Memory.writeBytes s.mem (placeFor s).toNat
      [BitVec.ofNat 8 (w % 2 ^ nbits / 256), BitVec.ofNat 8 (w % 2 ^ nbits)] }

end Sys2Proof.Machine
end

