-- ==== Sys2Proof/Machine/Step.lean ====
section
/-! DEFINITION. One move of the machine: deliver the next event (log 1). -/

namespace Sys2Proof.Machine

/-- One move: the oldest listed event, or a `step` when none is listed (R15, R242; log 1). -/
def step (s : State) : Host.Outcome State Fault Refusal := deliver (nextEvent s).1 (nextEvent s).2

/-- `s` with a table word stored where the next `step` fetches it (log 10). -/
def State.withFetchWord (s : State) (nbits w : Nat) : State := placeWord s nbits w

end Sys2Proof.Machine
end

