-- ==== Sys2Proof/Safety.lean ====
section
/-! DEFINITION. The words statements are written in: the invariant of the machine (R49), the parts of the state and
what it is to leave a part unchanged (R130), the end of a run as a parameter of a claim (R264). -/

namespace Sys2Proof.Machine

/-- The invariant of the machine: the bound on SP is R49's and the bound on return addresses is R25's; the canonical
form of memory is the model's own representation and no rule of the spec (log 4). The bound R49 puts on the register of
a wait is in the type of `wait`. -/
structure State.Inv (s : State) : Prop where
  mem_wf : Memory.wf s.mem
  sp_le : s.sp.toNat ≤ Config.stackDepth
  stack_le : ∀ k : Fin 16, s.stack[k.val].toNat ≤ 0x1000

/-- The parts of the state, down to one register, one stack entry, one key, one byte and one pixel. -/
inductive Part where
  | reg (x : Reg)
  | i
  | pc
  | sp
  | stack (k : Fin 16)
  | dt
  | st
  | key (k : Key)
  | wait
  | mem (a : Nat)
  | pix (xx : Fin 64) (yy : Fin 32)
  | draws
  | schedule
  deriving DecidableEq, Repr

/-- Two states hold the same in a part. -/
def Part.same (s t : State) : Part → Prop
  | .reg x => t.reg x = s.reg x
  | .i => t.i = s.i
  | .pc => t.pc = s.pc
  | .sp => t.sp = s.sp
  | .stack k => t.stack[k.val] = s.stack[k.val]
  | .dt => t.dt = s.dt
  | .st => t.st = s.st
  | .key k => t.keyAt k = s.keyAt k
  | .wait => t.wait = s.wait
  | .mem a => Memory.read t.mem a = Memory.read s.mem a
  | .pix xx yy => t.displayAt xx yy = s.displayAt xx yy
  | .draws => t.draws = s.draws
  | .schedule => t.schedule = s.schedule

/-- The frame: every part but the touched ones is unchanged from `s` to `t` (R130). -/
def Frame (touched : Part → Prop) (s t : State) : Prop := ∀ p, ¬ touched p → p.same s t

/-- No part is touched. -/
abbrev nothing : Part → Prop := fun _ => False

/-- The part touched is this one. -/
abbrev only (p : Part) : Part → Prop := fun q => q = p

/-- A flag-writing instruction touches its destination and VF (R161). -/
abbrev regAndVF (x : Reg) : Part → Prop := fun p => p = .reg x ∨ p = .reg vF

/-- An end-of-run predicate, the parameter of a claim (R264): of the state a run has left and the faults its steps have
returned, oldest first. -/
abbrev EndOfRun := State → List Fault → Prop

/-- The end-of-run predicate the spec recommends (R264): PC = 0xFFF, no wait, and no step has returned a fault. -/
def State.ended : EndOfRun := fun s faults => s.pc = 0xFFF ∧ s.wait = none ∧ faults = []

/-- The run that delivers these events, going on after any fault (R221 (c)), leaves `t`, and it has ended there (R264). -/
def RunEnds (ended : EndOfRun) (s : State) (events : List Event) (t : State) : Prop :=
  ∃ faults, deliverAll events s = some (t, faults) ∧ ended t faults

/-- A step event that executes an instruction: no wait, PC inside the fetch bound, a legal word (R120 to R123). -/
def State.executes (s : State) (i : Instr) : Prop :=
  s.wait = none ∧ s.pc.toNat ≤ Config.lastFetch ∧ decode s.fetchWord = some i

/-- A conditional skip: PC moves two bytes on exactly when the condition holds, and nothing else changes (R150). -/
def SkipsWhen (c : Prop) (i : Instr) (s : State) : Prop :=
  ∃ t, exec i s = .next t ∧ (c → t.pc = s.pc + 2) ∧ (¬ c → t.pc = s.pc) ∧ Frame (only .pc) s t

/-- A flag-writing instruction with destination `x`: it completes, VF holds the flag as 0x01 or 0x00, VX holds the
result unless it is VF, and nothing else changes (R27, R161). -/
def GivesResultAndFlag (i : Instr) (s : State) (x : Reg) (result : Nat) (flag : Prop) : Prop :=
  ∃ t, exec i s = .next t ∧ (flag → t.reg vF = 0x01) ∧ (¬ flag → t.reg vF = 0x00) ∧
    (x ≠ vF → (t.reg x).toNat = result) ∧ Frame (regAndVF x) s t

/-- An instruction that writes one register and nothing else. -/
def GivesResult (i : Instr) (s : State) (x : Reg) (result : Byte) : Prop :=
  ∃ t, exec i s = .next t ∧ t.reg x = result ∧ Frame (only (.reg x)) s t

/-- The registers the spec lists as written by an instruction: VX, the block V0 to VX, VF with a flag (R21). -/
def writesReg : Instr → Reg → Prop
  | .ldRB x _, r | .ldRR x _, r | .or x _, r | .and x _, r | .xor x _, r | .rnd x _, r | .ldRDT x, r => r = x
  | .addRB x _, r | .add x _, r | .sub x _, r | .shr x _, r | .subn x _, r | .shl x _, r => r = x ∨ r = vF
  | .drw _ _ _, r => r = vF
  | .ldRII x, r => r ≤ x
  | .sys _, _ | .cls, _ | .ret, _ | .jp _, _ | .call _, _ | .jpV0 _, _ => False
  | .seRB _ _, _ | .sneRB _ _, _ | .seRR _ _, _ | .sneRR _ _, _ | .skp _, _ | .sknp _, _ => False
  | .ldI _, _ | .addIR _, _ | .ldFR _, _ | .ldBR _, _ | .ldIIR _, _ => False
  | .ldRK _, _ | .ldDTR _, _ | .ldSTR _, _ => False

/-- The sprite bit that falls on the cell (xx, yy) is 1: some row and column of an n-row sprite drawn at (x0, y0) land
there, both axes wrapping, and bit 7 - col of that row's byte is 1 (R190, R193). -/
def spriteBit (rowByte : Nat → Byte) (n x0 y0 : Nat) (xx : Fin 64) (yy : Fin 32) : Prop :=
  ∃ row col, row < n ∧ col < 8 ∧ (x0 + col) % 64 = xx.val ∧ (y0 + row) % 32 = yy.val ∧
    (rowByte row).getLsbD (7 - col) = true

/-- The sprite of a DRW(x, y, n) at a state: the rows are the bytes from I on, the position is (VX, VY) (R192). -/
def drwBit (s : State) (x y : Reg) (n : Nat) (xx : Fin 64) (yy : Fin 32) : Prop :=
  spriteBit (fun row => Memory.read s.mem (s.base + row)) n (s.reg x).toNat (s.reg y).toNat xx yy

end Sys2Proof.Machine
end

