-- ==== Sys2Proof/Certificates/Slice0/Obligations.lean ====
section
/-! DEFINITION. The statements for the provers, each from the numbered rules of spec/. `exec i s` starts where the
spec's pseudocode starts, with PC already advanced (R124, R130); a fault carries the state it leaves (R219). Where a rule
is marked in the spec as its own decision or derivation, the docstring names that mark and the statement's basis is
'derived'. The bit patterns are the rules' own; most are marked there [from general knowledge, not in source] (D3). -/

open Sys2Proof Sys2Proof.Machine

/-! ## The codec (spec/30_encoding.md) -/

/-- A few words written out from the spec's encodings decode as they should; illegal ones decode to nothing
(95_test_vectors.md table 2.1, R98 to R104). -/
def Obligations.DecodesSpecWords : Prop :=
  decode 0x00E0 = some .cls ∧ decode 0x00EE = some .ret ∧ decode 0x00E1 = some (.sys 0x0E1) ∧
  decode 0x8126 = some (.shr 1 2) ∧ decode 0x8ABE = some (.shl 0xA 0xB) ∧ decode 0x3A7F = some (.seRB 0xA 0x7F) ∧
  decode 0xD125 = some (.drw 1 2 5) ∧ decode 0xE3A1 = some (.sknp 3) ∧ decode 0xF065 = some (.ldRII 0) ∧
  decode 0x5121 = none ∧ decode 0x9121 = none ∧ decode 0x8AB8 = none ∧ decode 0xE39F = none ∧ decode 0xF01F = none

/-- R109: both round trips, over all representable instructions and all words, and so `decode` is injective. -/
def Obligations.CodecRoundTrips : Prop :=
  (∀ i, WellFormed i → decode (encode i) = some i) ∧
  (∀ w i, decode w = some i → encode i = w ∧ WellFormed i) ∧
  (∀ w w' i, decode w = some i → decode w' = some i → w = w')

/-- R104: a word is illegal exactly in the listed sub-spaces of groups 5, 9, 8, E and F, and a step that fetches one
raises DecodeFailure naming it and changes no state. That the failing step changes no state is the spec's decision
D14. -/
def Obligations.IllegalWordsExactly : Prop :=
  (∀ w : Word, decode w = none ↔
    ((w.toNat / 4096 = 5 ∨ w.toNat / 4096 = 9) ∧ w.toNat % 16 ≠ 0) ∨
    (w.toNat / 4096 = 8 ∧ (8 ≤ w.toNat % 16 ∧ w.toNat % 16 ≠ 0xE)) ∨
    (w.toNat / 4096 = 0xE ∧ w.toNat % 256 ∉ [0x9E, 0xA1]) ∨
    (w.toNat / 4096 = 0xF ∧ w.toNat % 256 ∉ [0x07, 0x0A, 0x15, 0x18, 0x1E, 0x29, 0x33, 0x55, 0x65])) ∧
  (∀ s : State, s.wait = none → s.pc.toNat ≤ 0xFFE → decode s.fetchWord = none →
    stepEvent s = .fault (.decodeFailure s.fetchWord s))

/-! ## Reset, the invariant and the step -/

/-- R50: after reset every state element of the spec has the value the spec states. Which values "zeroed" means, PC =
0x0000 among them, is the spec's decision D18. -/
def Obligations.ResetState : Prop :=
  (∀ r, State.reset.reg r = 0x00) ∧ State.reset.i = 0x0000 ∧ State.reset.pc = 0x0000 ∧ State.reset.sp = 0x00 ∧
  (∀ k : Fin 16, State.reset.stack[k.val] = 0x0000) ∧ State.reset.dt = 0x00 ∧ State.reset.st = 0x00 ∧
  (∀ k, State.reset.keyAt k = false) ∧ State.reset.wait = none ∧
  (∀ a, Memory.read State.reset.mem a = 0x00) ∧ (∀ xx yy, State.reset.displayAt xx yy = false)

/-- The invariant holds after reset: SP at most 16 (R49), every stack entry at most 0x1000 (R25), and memory in canonical
form, which is the model's own representation and no rule of the spec (log 4). -/
def Obligations.ResetHasInvariant : Prop := State.reset.Inv

/-- The invariant holds after every event, whatever its result: after a move of the machine that goes on, and in the
state a faulting move leaves. Its bound on SP is R49's and its bound on stack entries R25's; the canonical form of
memory is the model's own representation and no rule of the spec (log 4). -/
def Obligations.EveryStepKeepsInvariant : Prop :=
  ∀ s t : State, s.Inv → stateLeft (step s) = some t → t.Inv

/-- A step runs the decoded instruction: with no event listed, or with a `step` listed next, a machine that waits for no
key and whose bytes at PC decode to `i` moves as `exec i` does on the state with PC advanced by 2 (R124, R125); the
list of events is the model's (log 1). -/
def Obligations.StepRunsDecodedInstruction : Prop :=
  ∀ (s : State) (i : Instr), s.executes i →
    (s.schedule = [] → step s = exec i s.advance) ∧
    (∀ rest, s.schedule = .step :: rest → step s = exec i { s with schedule := rest }.advance) ∧
    s.advance.pc.toNat = s.pc.toNat + 2 ∧ Frame (only .pc) s s.advance ∧ WellFormed i

/-- R127: the whole `step` event, its three tests in their order, the big-endian fetch and the advance before
execution. -/
def Obligations.StepEventInOrder : Prop :=
  ∀ s : State,
    (s.wait ≠ none → stepEvent s = .next s) ∧
    (s.wait = none → 0xFFE < s.pc.toNat → stepEvent s = .fault (.outOfBounds s)) ∧
    (s.wait = none → s.pc.toNat ≤ 0xFFE →
      ∀ w : Word, w.toNat = 256 * (Memory.read s.mem s.pc.toNat).toNat + (Memory.read s.mem (s.pc.toNat + 1)).toNat →
        (decode w = none → stepEvent s = .fault (.decodeFailure w s)) ∧
        (∀ i, decode w = some i →
          ∃ s' : State, s'.pc.toNat = s.pc.toNat + 2 ∧ Frame (only .pc) s s' ∧ stepEvent s = exec i s'))

/-- The model's list of events (log 1): each kind of event, when it is the oldest listed, is the one that happens, and
it happens to the state with that entry taken off the list (R15, R242). -/
def Obligations.ListedEventHappensNext : Prop :=
  ∀ (s : State) (e : Event) (rest : List Event), s.schedule = e :: rest →
    step s = match e with
      | .step => stepEvent { s with schedule := rest }
      | .tick => .next { s with schedule := rest }.tick
      | .keyDown k => .next ({ s with schedule := rest }.keyDown k)
      | .keyUp k => .next ({ s with schedule := rest }.keyUp k)
      | .jump a => .next ({ s with schedule := rest }.jump a)

/-- R25: the largest PC a step event that executes an instruction leaves is 0x10FE. -/
def Obligations.StepLeavesPcBounded : Prop :=
  ∀ s t : State, s.Inv → s.wait = none → s.pc.toNat ≤ 0xFFE → stateLeft (stepEvent s) = some t → t.pc.toNat ≤ 0x10FE

/-! ## Faults (spec/60_exceptions.md) -/

/-- R216: which instruction can raise what; every other instruction never raises. The rule is marked [derived: from
the Faults clause of every rule in files 41 to 46]; DRW is decision D11. -/
def Obligations.WhoRaisesWhat : Prop :=
  ∀ (i : Instr) (s : State) (f : Fault), exec i s = .fault f →
    (f = .stackOverflow s ∧ ∃ nnn, i = .call nnn) ∨
    (f = .stackUnderflow s ∧ i = .ret) ∨
    (f = .invalidKeyIndex s ∧ ∃ x, i = .skp x ∨ i = .sknp x) ∨
    (f = .outOfBounds s ∧ ((∃ x, i = .ldBR x ∨ i = .ldIIR x ∨ i = .ldRII x) ∨ ∃ x y n, i = .drw x y n))

/-- R219: a faulting step leaves exactly the state before it when PC is past the fetch bound or the word is illegal, and
otherwise an instruction was executed and raised the fault, with only PC advanced. The spec's decision D14. -/
def Obligations.FaultLeavesState : Prop :=
  ∀ (s : State) (f : Fault), stepEvent s = .fault f →
    (f = .outOfBounds s ∧ s.wait = none ∧ 0xFFE < s.pc.toNat) ∨
    (f = .decodeFailure s.fetchWord s ∧ s.wait = none ∧ s.pc.toNat ≤ 0xFFE ∧ decode s.fetchWord = none) ∨
    (∃ i, s.executes i ∧ exec i s.advance = .fault f ∧ f.left.pc.toNat = s.pc.toNat + 2 ∧
      Frame (only .pc) s f.left)

/-- R221 (c): where PC is past the fetch bound, or the word at PC is illegal, and no wait is set, the same fault recurs on
every `step`, any number of times, and nothing changes. R264: a run that has ended at PC = 0xFFF with no wait, by any
end-of-run predicate that says at least this (`State.ended`, the recommended one, adds that no step has faulted), is
frozen there until a `jump`: every later step raises OutOfBounds, and later ticks and key events change DT and the keypad
only. It rests on the spec's decisions D14 (the state a fault leaves), D22 (the end of a run) and D27 (ticks and key
events in every state). -/
def Obligations.FetchFaultRecurs : Prop :=
  (∀ (s : State) (n : Nat), s.wait = none →
    (0xFFE < s.pc.toNat →
      deliverAll (List.replicate n .step) s = some (s, List.replicate n (.outOfBounds s))) ∧
    (s.pc.toNat ≤ 0xFFE → decode s.fetchWord = none →
      deliverAll (List.replicate n .step) s = some (s, List.replicate n (.decodeFailure s.fetchWord s)))) ∧
  (∀ (ended : EndOfRun) (s t : State) (events later : List Event),
    (∀ u faults, ended u faults → u.pc = 0xFFF ∧ u.wait = none) → RunEnds ended s events t →
    (∀ a, Event.jump a ∉ later) →
    ∃ u faults, deliverAll later t = some (u, faults) ∧ faults.length = later.count .step ∧
      (∀ f ∈ faults, f = .outOfBounds f.left) ∧ Frame (fun p => p = .dt ∨ ∃ k, p = .key k) t u)

/-- The model refuses nothing in a state that meets the invariant of R49. It refuses one form in states the spec says
are unreachable: RET with SP of 17 to 255 (R30). That refusal is the model's choice (log 8). -/
def Obligations.RefusalOnlyOutsideInvariant : Prop :=
  (∀ (s : State) (r : Refusal), s.Inv → step s ≠ .refused r) ∧
  (∀ s : State, 17 ≤ s.sp.toNat → exec .ret s = .refused .spOutOfRange)

/-- R105, R265: through zeroed memory the machine executes no-ops, two bytes a step, as far as an instruction can be
fetched. -/
def Obligations.ZeroedMemoryRunsAsNoOps : Prop :=
  ∀ (n : Nat) (s : State), s.wait = none → s.pc.toNat + 2 * n ≤ 0x1000 →
    (∀ a, s.pc.toNat ≤ a → a < s.pc.toNat + 2 * n → Memory.read s.mem a = 0x00) →
    ∃ t, deliverAll (List.replicate n .step) s = some (t, []) ∧ t.pc.toNat = s.pc.toNat + 2 * n ∧
      Frame (only .pc) s t

/-! ## Control transfer (spec/41_control_flow.md) -/

/-- R141: SYS does nothing after the advance; the net effect of its step is `PC <- a + 2`. The spec's decision D29. -/
def Obligations.SysIsNoOp : Prop :=
  ∀ (nnn : Addr12) (s : State),
    (nnn ≠ 0x0E0 → nnn ≠ 0x0EE → decode (BitVec.ofNat 16 nnn.toNat) = some (.sys nnn)) ∧
    (∃ t, exec (.sys nnn) s = .next t ∧ Frame nothing s t) ∧
    (s.executes (.sys nnn) → ∃ t, stepEvent s = .next t ∧ t.pc.toNat = s.pc.toNat + 2 ∧ Frame (only .pc) s t)

/-- R142: RET pops, without erasing, the newest entry into PC; StackUnderflow exactly when SP = 0. The spec's
decisions D4 and D5. -/
def Obligations.RetPopsReturnAddress : Prop :=
  decode 0x00EE = some .ret ∧
  ∀ s : State,
    (1 ≤ s.sp.toNat → s.sp.toNat ≤ 16 →
      ∃ t, exec .ret s = .next t ∧ t.sp.toNat = s.sp.toNat - 1 ∧ s.stack[t.sp.toNat]? = some t.pc ∧
        Frame (fun p => p = .sp ∨ p = .pc) s t) ∧
    (s.sp = 0 → exec .ret s = .fault (.stackUnderflow s)) ∧
    (∀ f, exec .ret s = .fault f → s.sp = 0)

/-- R143: `PC <- zext_16(nnn)`. -/
def Obligations.JpSetsPc : Prop :=
  ∀ (nnn : Addr12) (s : State),
    decode (BitVec.ofNat 16 (0x1000 + nnn.toNat)) = some (.jp nnn) ∧
    ∃ t, exec (.jp nnn) s = .next t ∧ t.pc.toNat = nnn.toNat ∧ Frame (only .pc) s t

/-- R144: CALL pushes the advanced PC and goes to nnn; StackOverflow, with no entry written, when SP is 16 or more.
The spec's decisions D4 and D5. -/
def Obligations.CallPushesReturnAddress : Prop :=
  ∀ (nnn : Addr12) (s : State),
    decode (BitVec.ofNat 16 (0x2000 + nnn.toNat)) = some (.call nnn) ∧
    (s.sp.toNat < 16 →
      ∃ t, exec (.call nnn) s = .next t ∧ t.stack[s.sp.toNat]? = some s.pc ∧ t.sp.toNat = s.sp.toNat + 1 ∧
        t.pc.toNat = nnn.toNat ∧
        Frame (fun p => p = .pc ∨ p = .sp ∨ ∃ k : Fin 16, k.val = s.sp.toNat ∧ p = .stack k) s t) ∧
    (16 ≤ s.sp.toNat → exec (.call nnn) s = .fault (.stackOverflow s))

/-- R145: `PC <- zext_16(nnn) + zext_16(V[0])`, with no wrap. -/
def Obligations.JpV0AddsV0 : Prop :=
  ∀ (nnn : Addr12) (s : State),
    decode (BitVec.ofNat 16 (0xB000 + nnn.toNat)) = some (.jpV0 nnn) ∧
    ∃ t, exec (.jpV0 nnn) s = .next t ∧ t.pc.toNat = nnn.toNat + (s.reg 0).toNat ∧ Frame (only .pc) s t

/-- R142 and R144 together: a RET that meets the stack as a CALL left it resumes after the CALL, with SP as before.
It rests on the spec's decisions D4 and D5. -/
def Obligations.ReturnResumesAfterCall : Prop :=
  ∀ (nnn : Addr12) (s t u : State), exec (.call nnn) s = .next t → u.sp = t.sp → u.stack = t.stack →
    ∃ r, exec .ret u = .next r ∧ r.pc = s.pc ∧ r.sp = s.sp

/-! ## Skips (spec/42_skips.md) -/

/-- R151, R152: skip if VX equals, or does not equal, the immediate. -/
def Obligations.SkipsCompareByte : Prop :=
  ∀ (x : Reg) (kk : Byte) (s : State),
    decode (BitVec.ofNat 16 (0x3000 + 256 * x.val + kk.toNat)) = some (.seRB x kk) ∧
    decode (BitVec.ofNat 16 (0x4000 + 256 * x.val + kk.toNat)) = some (.sneRB x kk) ∧
    SkipsWhen (s.reg x = kk) (.seRB x kk) s ∧ SkipsWhen (s.reg x ≠ kk) (.sneRB x kk) s

/-- R153, R154: skip if VX equals, or does not equal, VY; the low nibble must be 0; with x = y the first always skips
and the second never. -/
def Obligations.SkipsCompareRegisters : Prop :=
  ∀ (x y : Reg) (s : State),
    decode (BitVec.ofNat 16 (0x5000 + 256 * x.val + 16 * y.val)) = some (.seRR x y) ∧
    decode (BitVec.ofNat 16 (0x9000 + 256 * x.val + 16 * y.val)) = some (.sneRR x y) ∧
    SkipsWhen (s.reg x = s.reg y) (.seRR x y) s ∧ SkipsWhen (s.reg x ≠ s.reg y) (.sneRR x y) s ∧
    (∀ z, 0 < z → z < 16 → decode (BitVec.ofNat 16 (0x5000 + 256 * x.val + 16 * y.val + z)) = none ∧
      decode (BitVec.ofNat 16 (0x9000 + 256 * x.val + 16 * y.val + z)) = none) ∧
    SkipsWhen True (.seRR x x) s ∧ SkipsWhen False (.sneRR x x) s

/-- R155, R156: skip if the key VX names is down, or up; InvalidKeyIndex when VX is 16 or more. -/
def Obligations.SkipsTestKey : Prop :=
  ∀ (x : Reg) (s : State),
    decode (BitVec.ofNat 16 (0xE09E + 256 * x.val)) = some (.skp x) ∧
    decode (BitVec.ofNat 16 (0xE0A1 + 256 * x.val)) = some (.sknp x) ∧
    (∀ k : Key, k.val = (s.reg x).toNat →
      SkipsWhen (s.keyAt k = true) (.skp x) s ∧ SkipsWhen (s.keyAt k = false) (.sknp x) s) ∧
    (16 ≤ (s.reg x).toNat →
      exec (.skp x) s = .fault (.invalidKeyIndex s) ∧ exec (.sknp x) s = .fault (.invalidKeyIndex s))

/-! ## Load, arithmetic and logic (spec/43_load_alu.md) -/

/-- R162, R164: load immediate and copy register; VF changes only if it is the destination. -/
def Obligations.LoadsWriteOneRegister : Prop :=
  ∀ (x y : Reg) (kk : Byte) (s : State),
    decode (BitVec.ofNat 16 (0x6000 + 256 * x.val + kk.toNat)) = some (.ldRB x kk) ∧
    decode (BitVec.ofNat 16 (0x8000 + 256 * x.val + 16 * y.val)) = some (.ldRR x y) ∧
    GivesResult (.ldRB x kk) s x kk ∧ GivesResult (.ldRR x y) s x (s.reg y)

/-- R165 to R167: OR, AND, XOR bit by bit; VF is not written unless it is the destination. That VF stays is the
spec's decision D7. -/
def Obligations.LogicIsBitwise : Prop :=
  ∀ (x y : Reg) (s : State),
    decode (BitVec.ofNat 16 (0x8001 + 256 * x.val + 16 * y.val)) = some (.or x y) ∧
    decode (BitVec.ofNat 16 (0x8002 + 256 * x.val + 16 * y.val)) = some (.and x y) ∧
    decode (BitVec.ofNat 16 (0x8003 + 256 * x.val + 16 * y.val)) = some (.xor x y) ∧
    ∃ a b c : Byte,
      (∀ j < 8, a.getLsbD j = ((s.reg x).getLsbD j || (s.reg y).getLsbD j) ∧
        b.getLsbD j = ((s.reg x).getLsbD j && (s.reg y).getLsbD j) ∧
        c.getLsbD j = ((s.reg x).getLsbD j ^^ (s.reg y).getLsbD j)) ∧
      GivesResult (.or x y) s x a ∧ GivesResult (.and x y) s x b ∧ GivesResult (.xor x y) s x c

/-- R163, R168: ADD_R_B and ADD give the sum modulo 256 and the carry-out. -/
def Obligations.AddsGiveSumAndCarry : Prop :=
  ∀ (x y : Reg) (kk : Byte) (s : State),
    decode (BitVec.ofNat 16 (0x7000 + 256 * x.val + kk.toNat)) = some (.addRB x kk) ∧
    decode (BitVec.ofNat 16 (0x8004 + 256 * x.val + 16 * y.val)) = some (.add x y) ∧
    GivesResultAndFlag (.addRB x kk) s x (((s.reg x).toNat + kk.toNat) % 256)
      (256 ≤ (s.reg x).toNat + kk.toNat) ∧
    GivesResultAndFlag (.add x y) s x (((s.reg x).toNat + (s.reg y).toNat) % 256)
      (256 ≤ (s.reg x).toNat + (s.reg y).toNat)

/-- R169, R171: SUB gives VX - VY and SUBN gives VY - VX, modulo 256, with VF the logical negation of the borrow.
SUBN's operand order is the spec's decision D8. -/
def Obligations.SubtractsGiveDifferenceAndNotBorrow : Prop :=
  ∀ (x y : Reg) (s : State),
    decode (BitVec.ofNat 16 (0x8005 + 256 * x.val + 16 * y.val)) = some (.sub x y) ∧
    decode (BitVec.ofNat 16 (0x8007 + 256 * x.val + 16 * y.val)) = some (.subn x y) ∧
    GivesResultAndFlag (.sub x y) s x (((s.reg x).toNat + 256 - (s.reg y).toNat) % 256)
      ((s.reg y).toNat ≤ (s.reg x).toNat) ∧
    GivesResultAndFlag (.subn x y) s x (((s.reg y).toNat + 256 - (s.reg x).toNat) % 256)
      ((s.reg x).toNat ≤ (s.reg y).toNat)

/-- R170, R172: SHR and SHL shift VX, never VY, by one, with VF the bit shifted out. -/
def Obligations.ShiftsMoveVxByOne : Prop :=
  ∀ (x y : Reg) (s : State),
    decode (BitVec.ofNat 16 (0x8006 + 256 * x.val + 16 * y.val)) = some (.shr x y) ∧
    decode (BitVec.ofNat 16 (0x800E + 256 * x.val + 16 * y.val)) = some (.shl x y) ∧
    GivesResultAndFlag (.shr x y) s x ((s.reg x).toNat / 2) ((s.reg x).toNat % 2 = 1) ∧
    GivesResultAndFlag (.shl x y) s x (2 * (s.reg x).toNat % 256) (128 ≤ (s.reg x).toNat)

/-- R176: RND writes the free byte ANDed with the mask, whatever the byte is: a bit that is 0 in kk is 0 in the
result and a bit that is 1 in kk is the draw's. The draw counter is the model's (log 2). The free draw is the spec's
decision D17. -/
def Obligations.RndMasksTheDraw : Prop :=
  ∀ (x : Reg) (kk : Byte) (s : State),
    decode (BitVec.ofNat 16 (0xC000 + 256 * x.val + kk.toNat)) = some (.rnd x kk) ∧
    ∃ t, exec (.rnd x kk) s = .next t ∧
      (∀ j < 8, (t.reg x).getLsbD j = ((Config.rndDraw s.draws).getLsbD j && kk.getLsbD j)) ∧
      t.draws = s.draws + 1 ∧ Frame (fun p => p = .reg x ∨ p = .draws) s t

/-- R27: after each of the seven flag-writing instructions VF holds 0x00 or 0x01. With VF as destination this is the
spec's decision D6. -/
def Obligations.FlagWritersLeaveVfABit : Prop :=
  ∀ (i : Instr) (s t : State),
    (∃ x y kk n, i = .add x y ∨ i = .addRB x kk ∨ i = .sub x y ∨ i = .subn x y ∨ i = .shr x y ∨ i = .shl x y ∨
      i = .drw x y n) →
    exec i s = .next t → t.reg vF = 0x00 ∨ t.reg vF = 0x01

/-- R21, R28: an instruction changes no register but those the spec lists it as writing; VF among them. For VF this
is the spec's decision D7. -/
def Obligations.OnlyListedRegistersAreWritten : Prop :=
  ∀ (i : Instr) (s t : State) (r : Reg), exec i s = .next t → ¬ writesReg i r → t.reg r = s.reg r

/-! ## Address register and memory (spec/44_index_memory.md) -/

/-- R181, R182, R183: LD_I, ADD_I_R (modulo 2^16, no flag) and LD_F_R (five times VX, not masked). The wrap of
ADD_I_R and the unmasked LD_F_R are the spec's decisions D9 and D13. -/
def Obligations.AddressRegisterWrites : Prop :=
  ∀ (nnn : Addr12) (x : Reg) (s : State),
    decode (BitVec.ofNat 16 (0xA000 + nnn.toNat)) = some (.ldI nnn) ∧
    decode (BitVec.ofNat 16 (0xF01E + 256 * x.val)) = some (.addIR x) ∧
    decode (BitVec.ofNat 16 (0xF029 + 256 * x.val)) = some (.ldFR x) ∧
    (∃ t, exec (.ldI nnn) s = .next t ∧ t.i.toNat = nnn.toNat ∧ Frame (only .i) s t) ∧
    (∃ t, exec (.addIR x) s = .next t ∧ t.i.toNat = (s.i.toNat + (s.reg x).toNat) % 65536 ∧ Frame (only .i) s t) ∧
    (∃ t, exec (.ldFR x) s = .next t ∧ t.i.toNat = 5 * (s.reg x).toNat ∧ Frame (only .i) s t)

/-- R184: LD_B_R stores the hundreds, tens and ones of VX at I, I+1, I+2, or raises OutOfBounds and writes nothing. -/
def Obligations.LdBRStoresDecimalDigits : Prop :=
  ∀ (x : Reg) (s : State),
    decode (BitVec.ofNat 16 (0xF033 + 256 * x.val)) = some (.ldBR x) ∧
    (s.base + 2 ≤ 0xFFF → Memory.wf s.mem →
      ∃ t, exec (.ldBR x) s = .next t ∧
        (Memory.read t.mem s.base).toNat = (s.reg x).toNat / 100 ∧
        (Memory.read t.mem (s.base + 1)).toNat = (s.reg x).toNat / 10 % 10 ∧
        (Memory.read t.mem (s.base + 2)).toNat = (s.reg x).toNat % 10 ∧
        Frame (fun p => ∃ k < 3, p = .mem (s.base + k)) s t) ∧
    (0xFFF < s.base + 2 → exec (.ldBR x) s = .fault (.outOfBounds s))

/-- R185: LD_II_R stores V0 to VX, inclusive, at I on, or raises OutOfBounds and writes nothing. -/
def Obligations.LdIIRStoresRegisters : Prop :=
  ∀ (x : Reg) (s : State),
    decode (BitVec.ofNat 16 (0xF055 + 256 * x.val)) = some (.ldIIR x) ∧
    (s.base + x.val ≤ 0xFFF → Memory.wf s.mem →
      ∃ t, exec (.ldIIR x) s = .next t ∧
        (∀ k : Reg, k ≤ x → Memory.read t.mem (s.base + k.val) = s.reg k) ∧
        Frame (fun p => ∃ k ≤ x.val, p = .mem (s.base + k)) s t) ∧
    (0xFFF < s.base + x.val → exec (.ldIIR x) s = .fault (.outOfBounds s))

/-- R187: LD_R_II loads V0 to VX, inclusive, from I on, or raises OutOfBounds and writes no register. -/
def Obligations.LdRIILoadsRegisters : Prop :=
  ∀ (x : Reg) (s : State),
    decode (BitVec.ofNat 16 (0xF065 + 256 * x.val)) = some (.ldRII x) ∧
    (s.base + x.val ≤ 0xFFF →
      ∃ t, exec (.ldRII x) s = .next t ∧
        (∀ k : Reg, k ≤ x → t.reg k = Memory.read s.mem (s.base + k.val)) ∧
        Frame (fun p => ∃ k ≤ x, p = .reg k) s t) ∧
    (0xFFF < s.base + x.val → exec (.ldRII x) s = .fault (.outOfBounds s))

/-- R185 and R187 together: a block that was stored is loaded back unchanged, whatever the registers hold meanwhile. -/
def Obligations.StoredBlockLoadsBack : Prop :=
  ∀ (x : Reg) (s t u : State), Memory.wf s.mem → exec (.ldIIR x) s = .next t → u.mem = t.mem → u.i = t.i →
    ∃ r, exec (.ldRII x) u = .next r ∧ ∀ k : Reg, k ≤ x → r.reg k = s.reg k

/-- R76: the very next fetch sees a byte stored by LD_II_R, with nothing required in between. R76 is marked [derived:
from rule R73 and 40_execution_cycle.md rule R122]. -/
def Obligations.FetchSeesStoredBytes : Prop :=
  ∀ (x k j : Reg) (s t : State), Memory.wf s.mem → exec (.ldIIR x) s = .next t → j.val = k.val + 1 → j ≤ x →
    s.pc.toNat = s.base + k.val → t.fetchWord.toNat = 256 * (s.reg k).toNat + (s.reg j).toNat

/-- R29, R186: no event but a step of LD_I, ADD_I_R or LD_F_R changes I; LD_II_R, LD_R_II, LD_B_R and DRW do not.
That block moves leave I is the spec's decision D12. -/
def Obligations.OnlyThreeInstructionsWriteI : Prop :=
  ∀ (e : Event) (s t : State), stateLeft (deliver e s) = some t → t.i ≠ s.i →
    e = .step ∧ ((∃ nnn, s.executes (.ldI nnn)) ∨ ∃ x, s.executes (.addIR x) ∨ s.executes (.ldFR x))

/-- R44, R74: no event but a step of LD_B_R or LD_II_R changes a byte of memory. -/
def Obligations.OnlyTwoInstructionsWriteMemory : Prop :=
  ∀ (e : Event) (s t : State), stateLeft (deliver e s) = some t → t.mem ≠ s.mem →
    e = .step ∧ ∃ x, s.executes (.ldBR x) ∨ s.executes (.ldIIR x)

/-- R30, R38: no event but a step of CALL or RET changes SP, and none but a step of CALL changes a stack entry. -/
def Obligations.OnlyCallAndRetReachTheStack : Prop :=
  ∀ (e : Event) (s t : State), stateLeft (deliver e s) = some t →
    (t.sp ≠ s.sp → e = .step ∧ ((∃ nnn, s.executes (.call nnn)) ∨ s.executes .ret)) ∧
    (t.stack ≠ s.stack → e = .step ∧ ∃ nnn, s.executes (.call nnn))

/-! ## Display (spec/45_display.md) -/

/-- R191: CLS clears every pixel and writes nothing else, VF included. -/
def Obligations.ClsClearsDisplay : Prop :=
  decode 0x00E0 = some .cls ∧
  ∀ s : State, ∃ t, exec .cls s = .next t ∧ (∀ xx yy, t.displayAt xx yy = false) ∧
    Frame (fun p => ∃ xx yy, p = .pix xx yy) s t

/-- R190 with R193 and R194: what the blitter does for any sprite of at most fifteen rows: each pixel is XORed with the
one sprite bit that falls on it, bit 7 of a row being its leftmost, and the collision bit says whether some set pixel met
a set bit. The sprite of no rows is R195, marked [derived: from rule R190]. -/
def Obligations.BlitterXorsAndCollides : Prop :=
  ∀ (x0 y0 : Nat) (bytes : List Byte) (d : Display), bytes.length ≤ 15 →
    (∀ xx yy, spriteBit (fun row => bytes.getD row 0) bytes.length x0 y0 xx yy →
      Display.pixel (draw x0 y0 bytes d).1 xx yy = !Display.pixel d xx yy) ∧
    (∀ xx yy, ¬ spriteBit (fun row => bytes.getD row 0) bytes.length x0 y0 xx yy →
      Display.pixel (draw x0 y0 bytes d).1 xx yy = Display.pixel d xx yy) ∧
    ((draw x0 y0 bytes d).2 = true ↔
      ∃ xx yy, Display.pixel d xx yy = true ∧ spriteBit (fun row => bytes.getD row 0) bytes.length x0 y0 xx yy)

/-- R192: DRW XORs the n bytes from I at (VX, VY), both axes wrapping, and VF is the collision, also for n = 0; it
raises OutOfBounds, drawing nothing, exactly when the range passes 0xFFF. The bounds check is the spec's decision
D11; n = 0 is R195, marked [derived: from rule R190]. -/
def Obligations.DrwDrawsSprite : Prop :=
  ∀ (x y : Reg) (n : Fin 16) (s : State),
    decode (BitVec.ofNat 16 (0xD000 + 256 * x.val + 16 * y.val + n.val)) = some (.drw x y n) ∧
    ((n.val = 0 ∨ s.base + n.val - 1 ≤ 0xFFF) →
      ∃ t, exec (.drw x y n) s = .next t ∧
        (∀ xx yy, drwBit s x y n.val xx yy → t.displayAt xx yy = !s.displayAt xx yy) ∧
        (∀ xx yy, ¬ drwBit s x y n.val xx yy → t.displayAt xx yy = s.displayAt xx yy) ∧
        ((∃ xx yy, s.displayAt xx yy = true ∧ drwBit s x y n.val xx yy) → t.reg vF = 0x01) ∧
        (¬ (∃ xx yy, s.displayAt xx yy = true ∧ drwBit s x y n.val xx yy) → t.reg vF = 0x00) ∧
        Frame (fun p => p = .reg vF ∨ ∃ xx yy, p = .pix xx yy) s t) ∧
    (1 ≤ n.val → 0xFFF < s.base + n.val - 1 → exec (.drw x y n) s = .fault (.outOfBounds s))

/-- R192 (the document's own example S7): drawing the same sprite twice at the same place restores the display, and
from a clear display the second draw reports a collision exactly when the sprite has a 1 bit. R192 is marked as
resting on decision D11. -/
def Obligations.DrawingTwiceRestoresDisplay : Prop :=
  ∀ (x y : Reg) (n : Fin 16) (s t u r : State), exec (.drw x y n) s = .next t →
    u.pix = t.pix → u.mem = t.mem → u.i = t.i → u.reg x = s.reg x → u.reg y = s.reg y →
    exec (.drw x y n) u = .next r →
    (∀ xx yy, r.displayAt xx yy = s.displayAt xx yy) ∧
    ((∀ xx yy, s.displayAt xx yy = false) → (r.reg vF = 0x01 ↔
      ∃ row col, row < n.val ∧ col < 8 ∧ (Memory.read s.mem (s.base + row)).getLsbD (7 - col) = true))

/-- R40: no event but a step of CLS or DRW changes a pixel. -/
def Obligations.OnlyClsAndDrwReachTheDisplay : Prop :=
  ∀ (e : Event) (s t : State), stateLeft (deliver e s) = some t → t.pix ≠ s.pix →
    e = .step ∧ (s.executes .cls ∨ ∃ x y n, s.executes (.drw x y n))

/-! ## Timers and keys (spec/46_timers_keys.md, spec/60_exceptions.md) -/

/-- R200, R202, R203: the three timer moves. -/
def Obligations.TimerMoves : Prop :=
  ∀ (x : Reg) (s : State),
    decode (BitVec.ofNat 16 (0xF007 + 256 * x.val)) = some (.ldRDT x) ∧
    decode (BitVec.ofNat 16 (0xF015 + 256 * x.val)) = some (.ldDTR x) ∧
    decode (BitVec.ofNat 16 (0xF018 + 256 * x.val)) = some (.ldSTR x) ∧
    GivesResult (.ldRDT x) s x s.dt ∧
    (∃ t, exec (.ldDTR x) s = .next t ∧ t.dt = s.reg x ∧ Frame (only .dt) s t) ∧
    (∃ t, exec (.ldSTR x) s = .next t ∧ t.st = s.reg x ∧ Frame (only .st) s t)

/-- R201: LD_R_K sets the wait marker to its register and does nothing else. -/
def Obligations.LdRKSetsWait : Prop :=
  ∀ (x : Reg) (s : State),
    decode (BitVec.ofNat 16 (0xF00A + 256 * x.val)) = some (.ldRK x) ∧
    ∃ t, exec (.ldRK x) s = .next t ∧ t.wait = some x ∧ Frame (only .wait) s t

/-- R231: `tick` counts DT down to 0, never below, in every state, and changes nothing else. That it holds in every
state is the spec's decision D27. -/
def Obligations.TickCountsDelayTimerDown : Prop :=
  ∀ s : State, ∃ t, deliver .tick s = .next t ∧
    (0 < s.dt.toNat → t.dt.toNat = s.dt.toNat - 1) ∧ (s.dt.toNat = 0 → t.dt.toNat = 0) ∧ Frame (only .dt) s t

/-- R237: `key_down(k)` sets the key, and on a press edge with a wait set stores the key number and clears the wait. -/
def Obligations.KeyDownResolvesWait : Prop :=
  ∀ (k : Key) (s : State), ∃ t, deliver (.keyDown k) s = .next t ∧ t.keyAt k = true ∧
    (∀ r, s.wait = some r → s.keyAt k = false →
      (t.reg r).toNat = k.val ∧ t.wait = none ∧ Frame (fun p => p = .key k ∨ p = .reg r ∨ p = .wait) s t) ∧
    ((s.wait = none ∨ s.keyAt k = true) → Frame (only (.key k)) s t)

/-- R236: `key_up(k)` clears the key, unconditionally, and nothing else. -/
def Obligations.KeyUpClearsKey : Prop :=
  ∀ (k : Key) (s : State), ∃ t, deliver (.keyUp k) s = .next t ∧ t.keyAt k = false ∧ Frame (only (.key k)) s t

/-- R240: `jump(addr)` writes PC, at any time, and nothing else. That it may come at any time is the spec's decision
D20. -/
def Obligations.JumpWritesPc : Prop :=
  ∀ (addr : Word) (s : State), ∃ t, deliver (.jump addr) s = .next t ∧ t.pc = addr ∧ Frame (only .pc) s t

/-- R31, R232: ST is written by LD_ST_R only, no tick and no other event changing it; DT is written by LD_DT_R and by
`tick` only. -/
def Obligations.TimersChangeOnlyAsStated : Prop :=
  ∀ (e : Event) (s t : State), stateLeft (deliver e s) = some t →
    (t.st ≠ s.st → e = .step ∧ ∃ x, s.executes (.ldSTR x) ∧ t.st = s.reg x) ∧
    (t.dt ≠ s.dt → e = .tick ∨ (e = .step ∧ ∃ x, s.executes (.ldDTR x) ∧ t.dt = s.reg x))

/-- R39: no event but `key_down(k)` and `key_up(k)` changes the keypad, and each changes its own key only. -/
def Obligations.OnlyKeyEventsWriteKeypad : Prop :=
  ∀ (e : Event) (s t : State) (k : Key), stateLeft (deliver e s) = some t → t.keyAt k ≠ s.keyAt k →
    e = .keyDown k ∨ e = .keyUp k

/-- R33: the wait marker is set by LD_R_K only, and cleared only by a `key_down` of a key that was up, which stores the
key number in the awaiting register. -/
def Obligations.WaitIsSetAndClearedOnlyAsStated : Prop :=
  ∀ (e : Event) (s t : State), stateLeft (deliver e s) = some t → t.wait ≠ s.wait →
    (e = .step ∧ ∃ x, s.executes (.ldRK x) ∧ t.wait = some x) ∨
    (t.wait = none ∧ ∃ k r, e = .keyDown k ∧ s.keyAt k = false ∧ s.wait = some r ∧ (t.reg r).toNat = k.val)

/-- R263: nothing but a key press ends a wait: through any sequence of steps, ticks, releases and jumps the wait stays,
no step faults, and no register, memory byte, pixel or stack entry changes. A waiting step changes nothing (R120), a tick
only DT (R231), a release only its key (R236) and a jump only PC (R240). That ticks come in every state is the spec's
decision D27, and that a jump may come at any time its decision D20. -/
def Obligations.WaitOutlastsEverythingButAPress : Prop :=
  ∀ (es : List Event) (s : State) (r : Reg), s.wait = some r → (∀ k, Event.keyDown k ∉ es) →
    ∃ t, deliverAll es s = some (t, []) ∧ t.wait = some r ∧
      Frame (fun p => p = .dt ∨ p = .pc ∨ ∃ k, p = .key k) s t

/-- R201, R237, R238 (the document's example S10): after LD_R_K(x) a held key does not resolve the wait; the press of a
key that is up stores it in VX and clears the wait without moving PC. -/
def Obligations.KeyWaitProtocol : Prop :=
  ∀ (x : Reg) (k : Key) (s t : State), exec (.ldRK x) s = .next t →
    stepEvent t = .next t ∧
    (s.keyAt k = true → ∃ u, deliver (.keyDown k) t = .next u ∧ u.wait = some x ∧ ∀ r, u.reg r = s.reg r) ∧
    (s.keyAt k = false →
      ∃ u, deliver (.keyDown k) t = .next u ∧ u.wait = none ∧ (u.reg x).toNat = k.val ∧ u.pc = t.pc)

/-- A tick before an instruction other than LD_R_DT and LD_DT_R is the same as a tick after it: a tick changes only DT
(R231, R232), only those two instructions read or write DT (R31), and an instruction changes nothing its rule does not
name (R130). That a tick comes in every state is the spec's decision D27. -/
def Obligations.TickCommutesWithOtherInstructions : Prop :=
  ∀ (i : Instr) (s t : State), (∀ x, i ≠ .ldRDT x ∧ i ≠ .ldDTR x) → exec i s = .next t →
    exec i s.tick = .next t.tick

/-! ## Boot (spec/70_reset_and_hazards.md) -/

/-- R260: the launch state under the standard boot: memory is zeros overlaid by the font and then the image, PC is
the jump address, and all else is as after reset. R260 is marked [derived]; reset and font are the spec's decisions
D18 and D21. -/
def Obligations.BootDeterminesLaunchState : Prop :=
  ∀ (font : Vector Byte 80) (addr : Nat) (image : List Byte) (entry : Word), addr + image.length ≤ 4096 →
    ∃ t, bootBytes font addr image entry = .next t ∧ t.pc = entry ∧
      (∀ a, Memory.read t.mem a =
        if addr ≤ a ∧ a < addr + image.length then image.getD (a - addr) 0
        else if a < 80 then font.toList.getD a 0 else 0x00) ∧
      Frame (fun p => p = .pc ∨ ∃ a, p = .mem a) State.reset t

/-- R258, R61, R108: a program loaded as instructions is fetched back: the word at `addr + 2j` decodes to instruction
j. -/
def Obligations.LoadedProgramIsFetched : Prop :=
  ∀ (addr : Nat) (is : List Instr) (s : State), Memory.wf s.mem → addr + 2 * is.length ≤ 4096 →
    (∀ i ∈ is, WellFormed i) →
    ∃ t, s.loadProgram addr is = .next t ∧ (∀ a, a < addr ∨ addr + 2 * is.length ≤ a →
        Memory.read t.mem a = Memory.read s.mem a) ∧
      ∀ (j : Nat) (i : Instr), is[j]? = some i → decode (Memory.readWord t.mem (addr + 2 * j)) = some i
end

