-- ==== Sys2Proof/Laws/Codec.lean ====
section
/-! SUPPORT. The fields of a packed word, format by format (R91, R92), and the value of a word as a number. -/

namespace Sys2Proof

theorem toNat_packNNN (a : BitVec 4) (nnn : Addr12) : (packNNN a nnn).toNat = a.toNat * 4096 + nnn.toNat := by
  have := nnn.isLt
  rw [packNNN, BitVec.toNat_append, ← Nat.shiftLeft_add_eq_or_of_lt this, Nat.shiftLeft_eq]

theorem toNat_packXKK (a : BitVec 4) (x : Reg) (kk : Byte) :
    (packXKK a x kk).toNat = a.toNat * 4096 + x.val * 256 + kk.toNat := by
  have h1 := kk.isLt
  have h2 : (BitVec.ofFin (w := 4) x ++ kk : BitVec 12).toNat = x.val * 256 + kk.toNat := by
    rw [BitVec.toNat_append, ← Nat.shiftLeft_add_eq_or_of_lt h1, Nat.shiftLeft_eq]; rfl
  rw [packXKK, BitVec.toNat_append, ← Nat.shiftLeft_add_eq_or_of_lt (BitVec.isLt _), Nat.shiftLeft_eq, h2]
  omega

theorem toNat_packXYZ (a : BitVec 4) (x y : Reg) (z : Fin 16) :
    (packXYZ a x y z).toNat = a.toNat * 4096 + x.val * 256 + y.val * 16 + z.val := by
  have h1 : (BitVec.ofFin (w := 4) y ++ BitVec.ofFin (w := 4) z : BitVec 8).toNat = y.val * 16 + z.val := by
    rw [BitVec.toNat_append, ← Nat.shiftLeft_add_eq_or_of_lt (BitVec.isLt _), Nat.shiftLeft_eq]; rfl
  have h2 : (packXYZ a x y z) = packXKK a x (BitVec.ofFin (w := 4) y ++ BitVec.ofFin (w := 4) z : BitVec 8) := rfl
  rw [h2, toNat_packXKK, h1]; omega

/-- A number with the fields of format NNN is the packed word. -/
theorem ofNat_eq_packNNN (a : BitVec 4) (nnn : Addr12) {n : Nat} (h : n = a.toNat * 4096 + nnn.toNat) :
    BitVec.ofNat 16 n = packNNN a nnn := by
  apply BitVec.eq_of_toNat_eq
  have := nnn.isLt; have := a.isLt
  rw [toNat_packNNN, BitVec.toNat_ofNat, h]; omega

/-- A number with the fields of format XKK is the packed word. -/
theorem ofNat_eq_packXKK (a : BitVec 4) (x : Reg) (kk : Byte) {n : Nat}
    (h : n = a.toNat * 4096 + x.val * 256 + kk.toNat) : BitVec.ofNat 16 n = packXKK a x kk := by
  apply BitVec.eq_of_toNat_eq
  have := kk.isLt; have := a.isLt; have := x.isLt
  rw [toNat_packXKK, BitVec.toNat_ofNat, h]; omega

/-- A number with the fields of format XY or XYN is the packed word. -/
theorem ofNat_eq_packXYZ (a : BitVec 4) (x y : Reg) (z : Fin 16) {n : Nat}
    (h : n = a.toNat * 4096 + x.val * 256 + y.val * 16 + z.val) : BitVec.ofNat 16 n = packXYZ a x y z := by
  apply BitVec.eq_of_toNat_eq
  have := y.isLt; have := a.isLt; have := x.isLt; have := z.isLt
  rw [toNat_packXYZ, BitVec.toNat_ofNat, h]; omega

/-- The primary opcode of a word, as a number (R91). -/
theorem fieldA_toNat (w : Word) : (fieldA w).toNat = w.toNat / 4096 := by
  have := w.isLt
  simp [fieldA, BitVec.extractLsb'_toNat, Nat.shiftRight_eq_div_pow]; omega

theorem fieldX_val (w : Word) : (fieldX w).val = w.toNat / 256 % 16 := by
  simp [fieldX, Nat.shiftRight_eq_div_pow]

theorem fieldY_val (w : Word) : (fieldY w).val = w.toNat / 16 % 16 := by
  simp [fieldY, Nat.shiftRight_eq_div_pow]

theorem fieldZ_val (w : Word) : (fieldZ w).val = w.toNat % 16 := by
  simp [fieldZ]

theorem fieldKK_toNat (w : Word) : (fieldKK w).toNat = w.toNat % 256 := by
  simp [fieldKK, BitVec.extractLsb'_toNat]

theorem fieldNNN_toNat (w : Word) : (fieldNNN w).toNat = w.toNat % 4096 := by
  simp [fieldNNN, BitVec.extractLsb'_toNat]

section NNN
variable (a : BitVec 4) (nnn : Addr12)

@[simp] theorem fieldA_packNNN : fieldA (packNNN a nnn) = a := by
  apply BitVec.eq_of_toNat_eq
  have := nnn.isLt; have := a.isLt
  rw [fieldA_toNat, toNat_packNNN]; omega

@[simp] theorem fieldNNN_packNNN : fieldNNN (packNNN a nnn) = nnn := by
  apply BitVec.eq_of_toNat_eq
  have := nnn.isLt
  rw [fieldNNN_toNat, toNat_packNNN]; omega

end NNN

section XKK
variable (a : BitVec 4) (x : Reg) (kk : Byte)

@[simp] theorem fieldA_packXKK : fieldA (packXKK a x kk) = a := by
  apply BitVec.eq_of_toNat_eq
  have := kk.isLt; have := x.isLt
  rw [fieldA_toNat, toNat_packXKK]; omega

@[simp] theorem fieldX_packXKK : fieldX (packXKK a x kk) = x := by
  apply Fin.ext
  have := kk.isLt; have := x.isLt
  rw [fieldX_val, toNat_packXKK]; omega

@[simp] theorem fieldKK_packXKK : fieldKK (packXKK a x kk) = kk := by
  apply BitVec.eq_of_toNat_eq
  have := kk.isLt
  rw [fieldKK_toNat, toNat_packXKK]; omega

end XKK

section XYZ
variable (a : BitVec 4) (x y : Reg) (z : Fin 16)

@[simp] theorem fieldA_packXYZ : fieldA (packXYZ a x y z) = a := by
  apply BitVec.eq_of_toNat_eq
  have := x.isLt; have := y.isLt; have := z.isLt
  rw [fieldA_toNat, toNat_packXYZ]; omega

@[simp] theorem fieldX_packXYZ : fieldX (packXYZ a x y z) = x := by
  apply Fin.ext
  have := x.isLt; have := y.isLt; have := z.isLt
  rw [fieldX_val, toNat_packXYZ]; omega

@[simp] theorem fieldY_packXYZ : fieldY (packXYZ a x y z) = y := by
  apply Fin.ext
  have := y.isLt; have := z.isLt
  rw [fieldY_val, toNat_packXYZ]; omega

@[simp] theorem fieldZ_packXYZ : fieldZ (packXYZ a x y z) = z := by
  apply Fin.ext
  have := z.isLt
  rw [fieldZ_val, toNat_packXYZ]; omega

end XYZ

end Sys2Proof
end

