-- ==== Sys2Proof/Laws/Memory.lean ====
section
/-! SUPPORT. The laws of main memory: read after write, the canonical form kept by every operation, equal memories are
equal data, and what the two bounded accesses can do. -/

namespace Sys2Proof.Machine

/-- An address below every listed one is not listed. -/
theorem Memory.read_of_lt {m : List Host.Cell} {a : Nat} (h : ∀ c ∈ m, a < c.1) :
    Memory.read m a = Memory.unlisted := by
  induction m with
  | nil => rfl
  | cons c m ih =>
    obtain ⟨b, x⟩ := c
    have hb : a < b := h (b, x) (by simp)
    rw [Memory.read, if_neg (by omega)]
    exact ih fun d hd => h d (by simp [hd])

/-- Reading a byte after a write, in a memory whose addresses rise (R66). -/
theorem Memory.read_write {m : List Host.Cell} (hm : m.Pairwise fun c d => c.1 < d.1) (a b : Nat) (x : Byte) :
    Memory.read (Memory.write m a x) b = if b = a then x else Memory.read m b := by
  induction m with
  | nil =>
    unfold Memory.write
    by_cases hx : x = Memory.unlisted <;> by_cases hb : b = a <;> simp [Memory.read, hx, hb]
  | cons c m ih =>
    obtain ⟨e, y⟩ := c
    rw [List.pairwise_cons] at hm
    have low : ∀ d ∈ m, e < d.1 := hm.1
    unfold Memory.write
    by_cases h1 : a < e
    · rw [if_pos h1]
      by_cases hx : x = Memory.unlisted
      · rw [if_pos hx]
        by_cases hb : b = a
        · subst hb
          rw [if_pos rfl, hx]
          apply Memory.read_of_lt
          intro d hd
          rcases List.mem_cons.1 hd with rfl | hd
          · exact h1
          · exact h1.trans (low d hd)
        · rw [if_neg hb]
      · rw [if_neg hx, Memory.read]
    · rw [if_neg h1]
      by_cases h2 : a = e
      · subst h2
        rw [if_pos rfl]
        by_cases hx : x = Memory.unlisted
        · rw [if_pos hx, Memory.read]
          by_cases hb : b = a
          · subst hb
            rw [if_pos rfl, hx]
            exact Memory.read_of_lt low
          · rw [if_neg hb, if_neg hb]
        · rw [if_neg hx, Memory.read, Memory.read]
          by_cases hb : b = a <;> simp [hb]
      · rw [if_neg h2, Memory.read, Memory.read, ih hm.2]
        by_cases hb : b = a
        · subst hb; simp [h2]
        · simp [hb]

/-- A written list holds the new address or one of the old ones. -/
theorem Memory.mem_write {m : List Host.Cell} {a : Nat} {x : Byte} {c : Host.Cell}
    (h : c ∈ Memory.write m a x) : (c = (a, x) ∧ x ≠ Memory.unlisted) ∨ c ∈ m := by
  induction m with
  | nil =>
    unfold Memory.write at h
    by_cases hx : x = Memory.unlisted <;> simp [hx] at h
    exact .inl ⟨h, hx⟩
  | cons d m ih =>
    obtain ⟨e, y⟩ := d
    unfold Memory.write at h
    split at h
    · split at h
      · exact .inr h
      · next hx => rcases List.mem_cons.1 h with rfl | h <;> [exact .inl ⟨rfl, hx⟩; exact .inr h]
    · split at h
      · split at h
        · exact .inr (List.mem_cons_of_mem _ h)
        · next hx =>
          rcases List.mem_cons.1 h with rfl | h <;> [exact .inl ⟨rfl, hx⟩; exact .inr (List.mem_cons_of_mem _ h)]
      · rcases List.mem_cons.1 h with rfl | h
        · exact .inr (by simp)
        · exact (ih h).imp_right (List.mem_cons_of_mem _)

/-- A write keeps the addresses rising. -/
theorem Memory.pairwise_write {m : List Host.Cell} (hm : m.Pairwise fun c d => c.1 < d.1) (a : Nat) (x : Byte) :
    (Memory.write m a x).Pairwise fun c d => c.1 < d.1 := by
  induction m with
  | nil => unfold Memory.write; split <;> simp
  | cons d m ih =>
    obtain ⟨e, y⟩ := d
    have hm' := List.pairwise_cons.1 hm
    unfold Memory.write
    split
    · next h1 =>
      split
      · exact hm
      · refine List.pairwise_cons.2 ⟨fun c hc => ?_, hm⟩
        rcases List.mem_cons.1 hc with rfl | hc
        · exact h1
        · exact h1.trans (hm'.1 c hc)
    · next h1 =>
      split
      · next h2 =>
        subst h2
        split
        · exact hm'.2
        · exact List.pairwise_cons.2 ⟨hm'.1, hm'.2⟩
      · next h2 =>
        refine List.pairwise_cons.2 ⟨fun c hc => ?_, ih hm'.2⟩
        rcases Memory.mem_write hc with ⟨rfl, -⟩ | hc
        · show e < a; omega
        · exact hm'.1 c hc

/-- A write inside memory keeps the canonical form. -/
theorem Memory.wf_write {m : List Host.Cell} (hm : Memory.wf m) {a : Nat} (ha : a < Config.memSize) (x : Byte) :
    Memory.wf (Memory.write m a x) := by
  refine ⟨Memory.pairwise_write hm.1 a x, fun c hc => ?_⟩
  rcases Memory.mem_write hc with ⟨rfl, hx⟩ | hc
  · exact ⟨ha, hx⟩
  · exact hm.2 c hc

/-- A block write inside memory keeps the canonical form. -/
theorem Memory.wf_writeBytes {xs : List Byte} :
    ∀ {m : List Host.Cell} {a : Nat}, Memory.wf m → a + xs.length ≤ Config.memSize →
      Memory.wf (Memory.writeBytes m a xs) := by
  induction xs with
  | nil => intro m a hm _; exact hm
  | cons x xs ih =>
    intro m a hm h
    simp only [List.length_cons] at h
    exact ih (Memory.wf_write hm (by omega) x) (by omega)

/-- A block write keeps the addresses rising. -/
theorem Memory.pairwise_writeBytes {xs : List Byte} :
    ∀ {m : List Host.Cell} {a : Nat}, (m.Pairwise fun c d => c.1 < d.1) →
      (Memory.writeBytes m a xs).Pairwise fun c d => c.1 < d.1 := by
  induction xs with
  | nil => intro m a hm; exact hm
  | cons x xs ih => intro m a hm; exact ih (Memory.pairwise_write hm a x)

/-- Reading a byte after a block write: the block's own byte inside it, the old byte outside (R61, R66). -/
theorem Memory.read_writeBytes {xs : List Byte} (b : Nat) :
    ∀ {m : List Host.Cell} {a : Nat}, (m.Pairwise fun c d => c.1 < d.1) →
      Memory.read (Memory.writeBytes m a xs) b =
        if a ≤ b ∧ b < a + xs.length then xs.getD (b - a) 0 else Memory.read m b := by
  induction xs with
  | nil => intro m a _; simp [Memory.writeBytes]
  | cons x xs ih =>
    intro m a hm
    simp only [List.length_cons]
    rw [Memory.writeBytes, ih (Memory.pairwise_write hm a x), Memory.read_write hm]
    by_cases hb : b = a
    · subst hb; simp
    · by_cases hr : a + 1 ≤ b ∧ b < a + 1 + xs.length
      · rw [if_pos hr, if_pos (by omega), show b - a = (b - (a + 1)) + 1 by omega]; simp
      · rw [if_neg hr, if_neg hb, if_neg (by omega)]

/-- Two memories in canonical form that read the same everywhere are the same list. -/
theorem Memory.ext {m n : List Host.Cell} (hm : Memory.wf m) (hn : Memory.wf n)
    (h : ∀ a, Memory.read m a = Memory.read n a) : m = n := by
  have head : ∀ {e : Nat} {y : Byte} {l : List Host.Cell}, Memory.wf ((e, y) :: l) →
      (∀ a < e, Memory.read ((e, y) :: l) a = Memory.unlisted) ∧ Memory.read ((e, y) :: l) e ≠ Memory.unlisted := by
    intro e y l hl
    refine ⟨fun a ha => Memory.read_of_lt fun c hc => ?_, ?_⟩
    · rcases List.mem_cons.1 hc with rfl | hc
      · exact ha
      · exact ha.trans ((List.pairwise_cons.1 hl.1).1 c hc)
    · rw [Memory.read, if_pos rfl]
      exact (hl.2 (e, y) (by simp)).2
  induction m generalizing n with
  | nil =>
    cases n with
    | nil => rfl
    | cons d n => exact absurd (h d.1).symm (head hn).2
  | cons c m ih =>
    obtain ⟨e, y⟩ := c
    cases n with
    | nil => exact absurd (h e) (head hm).2
    | cons d n =>
      obtain ⟨f, z⟩ := d
      have hef : e = f := by
        rcases Nat.lt_trichotomy e f with hlt | heq | hgt
        · exact absurd ((h e).trans ((head hn).1 e hlt)) (head hm).2
        · exact heq
        · exact absurd ((h f).symm.trans ((head hm).1 f hgt)) (head hn).2
      subst hef
      have hyz : y = z := by have := h e; simpa [Memory.read] using this
      subst hyz
      have tail : ∀ {l : List Host.Cell}, Memory.wf ((e, y) :: l) → Memory.wf l := fun hl =>
        ⟨(List.pairwise_cons.1 hl.1).2, fun c hc => hl.2 c (List.mem_cons_of_mem _ hc)⟩
      have low : ∀ {l : List Host.Cell}, Memory.wf ((e, y) :: l) → Memory.read l e = Memory.unlisted := fun hl =>
        Memory.read_of_lt (List.pairwise_cons.1 hl.1).1
      rw [ih (tail hm) (tail hn) fun a => ?_]
      by_cases ha : a = e
      · rw [ha, low hm, low hn]
      · have := h a; simpa [Memory.read, ha] using this

@[simp] theorem Memory.length_readBytes (m : List Host.Cell) (a n : Nat) : (Memory.readBytes m a n).length = n := by
  simp [Memory.readBytes]

/-- The k-th byte of a block read. -/
theorem Memory.getD_readBytes (m : List Host.Cell) (a : Nat) {n k : Nat} (h : k < n) :
    (Memory.readBytes m a n).getD k 0 = Memory.read m (a + k) := by
  simp [Memory.readBytes, List.getD, h]

/-- The bound of R70 in one inequality: a block of n bytes at a fits when it ends inside memory, or is empty. -/
theorem inMemory_iff (a n : Nat) : inMemory a n = true ↔ n = 0 ∨ a + n ≤ Config.memSize := by
  simp only [inMemory, Bool.or_eq_true, decide_eq_true_eq, Config.lastAddr, Config.memSize]; omega

/-- All a bounded store can do (R65, R180): write its bytes, or raise OutOfBounds in the same state. -/
theorem storeBytes_cases (a : Nat) (xs : List Byte) (s : State) :
    ((xs.length = 0 ∨ a + xs.length ≤ Config.memSize) ∧
      storeBytes a xs s = .next { s with mem := Memory.writeBytes s.mem a xs }) ∨
    (¬(xs.length = 0 ∨ a + xs.length ≤ Config.memSize) ∧ storeBytes a xs s = .fault (.outOfBounds s)) := by
  rw [← inMemory_iff]
  by_cases h : inMemory a xs.length = true
  · exact .inl ⟨h, by rw [storeBytes, if_pos h]⟩
  · exact .inr ⟨h, by rw [storeBytes, if_neg h, raise]⟩

/-- All a bounded load can do (R65, R180): go on with its bytes, or raise OutOfBounds in the same state. -/
theorem withBytes_cases (a n : Nat) (s : State) (k : List Byte → Result) :
    ((n = 0 ∨ a + n ≤ Config.memSize) ∧ withBytes a n s k = k (Memory.readBytes s.mem a n)) ∨
    (¬(n = 0 ∨ a + n ≤ Config.memSize) ∧ withBytes a n s k = .fault (.outOfBounds s)) := by
  rw [← inMemory_iff]
  by_cases h : inMemory a n = true
  · exact .inl ⟨h, by rw [withBytes, if_pos h]⟩
  · exact .inr ⟨h, by rw [withBytes, if_neg h, raise]⟩

@[simp] theorem length_decimalDigits (b : Byte) : (decimalDigits b).length = 3 := rfl

end Sys2Proof.Machine
end

