-- ==== Sys2Proof/Laws/State.lean ====
section
/-! SUPPORT. What each named update does to each field of State, and the register file's read after write. -/

namespace Sys2Proof.Machine

variable (s : State)

@[simp] theorem State.setReg_i (x : Reg) (b : Byte) : (s.setReg x b).i = s.i := rfl
@[simp] theorem State.setReg_pc (x : Reg) (b : Byte) : (s.setReg x b).pc = s.pc := rfl
@[simp] theorem State.setReg_sp (x : Reg) (b : Byte) : (s.setReg x b).sp = s.sp := rfl
@[simp] theorem State.setReg_stack (x : Reg) (b : Byte) : (s.setReg x b).stack = s.stack := rfl
@[simp] theorem State.setReg_dt (x : Reg) (b : Byte) : (s.setReg x b).dt = s.dt := rfl
@[simp] theorem State.setReg_st (x : Reg) (b : Byte) : (s.setReg x b).st = s.st := rfl
@[simp] theorem State.setReg_key (x : Reg) (b : Byte) : (s.setReg x b).key = s.key := rfl
@[simp] theorem State.setReg_wait (x : Reg) (b : Byte) : (s.setReg x b).wait = s.wait := rfl
@[simp] theorem State.setReg_mem (x : Reg) (b : Byte) : (s.setReg x b).mem = s.mem := rfl
@[simp] theorem State.setReg_pix (x : Reg) (b : Byte) : (s.setReg x b).pix = s.pix := rfl
@[simp] theorem State.setReg_draws (x : Reg) (b : Byte) : (s.setReg x b).draws = s.draws := rfl
@[simp] theorem State.setReg_schedule (x : Reg) (b : Byte) : (s.setReg x b).schedule = s.schedule := rfl

@[simp] theorem State.setI_v (w : Word) : (s.setI w).v = s.v := rfl
@[simp] theorem State.setI_pc (w : Word) : (s.setI w).pc = s.pc := rfl
@[simp] theorem State.setI_sp (w : Word) : (s.setI w).sp = s.sp := rfl
@[simp] theorem State.setI_stack (w : Word) : (s.setI w).stack = s.stack := rfl
@[simp] theorem State.setI_dt (w : Word) : (s.setI w).dt = s.dt := rfl
@[simp] theorem State.setI_st (w : Word) : (s.setI w).st = s.st := rfl
@[simp] theorem State.setI_key (w : Word) : (s.setI w).key = s.key := rfl
@[simp] theorem State.setI_wait (w : Word) : (s.setI w).wait = s.wait := rfl
@[simp] theorem State.setI_mem (w : Word) : (s.setI w).mem = s.mem := rfl
@[simp] theorem State.setI_pix (w : Word) : (s.setI w).pix = s.pix := rfl
@[simp] theorem State.setI_draws (w : Word) : (s.setI w).draws = s.draws := rfl
@[simp] theorem State.setI_schedule (w : Word) : (s.setI w).schedule = s.schedule := rfl

@[simp] theorem State.setDT_v (b : Byte) : (s.setDT b).v = s.v := rfl
@[simp] theorem State.setDT_i (b : Byte) : (s.setDT b).i = s.i := rfl
@[simp] theorem State.setDT_pc (b : Byte) : (s.setDT b).pc = s.pc := rfl
@[simp] theorem State.setDT_sp (b : Byte) : (s.setDT b).sp = s.sp := rfl
@[simp] theorem State.setDT_stack (b : Byte) : (s.setDT b).stack = s.stack := rfl
@[simp] theorem State.setDT_st (b : Byte) : (s.setDT b).st = s.st := rfl
@[simp] theorem State.setDT_key (b : Byte) : (s.setDT b).key = s.key := rfl
@[simp] theorem State.setDT_wait (b : Byte) : (s.setDT b).wait = s.wait := rfl
@[simp] theorem State.setDT_mem (b : Byte) : (s.setDT b).mem = s.mem := rfl
@[simp] theorem State.setDT_pix (b : Byte) : (s.setDT b).pix = s.pix := rfl
@[simp] theorem State.setDT_draws (b : Byte) : (s.setDT b).draws = s.draws := rfl
@[simp] theorem State.setDT_schedule (b : Byte) : (s.setDT b).schedule = s.schedule := rfl

@[simp] theorem State.setST_v (b : Byte) : (s.setST b).v = s.v := rfl
@[simp] theorem State.setST_i (b : Byte) : (s.setST b).i = s.i := rfl
@[simp] theorem State.setST_pc (b : Byte) : (s.setST b).pc = s.pc := rfl
@[simp] theorem State.setST_sp (b : Byte) : (s.setST b).sp = s.sp := rfl
@[simp] theorem State.setST_stack (b : Byte) : (s.setST b).stack = s.stack := rfl
@[simp] theorem State.setST_dt (b : Byte) : (s.setST b).dt = s.dt := rfl
@[simp] theorem State.setST_key (b : Byte) : (s.setST b).key = s.key := rfl
@[simp] theorem State.setST_wait (b : Byte) : (s.setST b).wait = s.wait := rfl
@[simp] theorem State.setST_mem (b : Byte) : (s.setST b).mem = s.mem := rfl
@[simp] theorem State.setST_pix (b : Byte) : (s.setST b).pix = s.pix := rfl
@[simp] theorem State.setST_draws (b : Byte) : (s.setST b).draws = s.draws := rfl
@[simp] theorem State.setST_schedule (b : Byte) : (s.setST b).schedule = s.schedule := rfl

@[simp] theorem State.setWait_v (w : Option Reg) : (s.setWait w).v = s.v := rfl
@[simp] theorem State.setWait_i (w : Option Reg) : (s.setWait w).i = s.i := rfl
@[simp] theorem State.setWait_pc (w : Option Reg) : (s.setWait w).pc = s.pc := rfl
@[simp] theorem State.setWait_sp (w : Option Reg) : (s.setWait w).sp = s.sp := rfl
@[simp] theorem State.setWait_stack (w : Option Reg) : (s.setWait w).stack = s.stack := rfl
@[simp] theorem State.setWait_dt (w : Option Reg) : (s.setWait w).dt = s.dt := rfl
@[simp] theorem State.setWait_st (w : Option Reg) : (s.setWait w).st = s.st := rfl
@[simp] theorem State.setWait_key (w : Option Reg) : (s.setWait w).key = s.key := rfl
@[simp] theorem State.setWait_mem (w : Option Reg) : (s.setWait w).mem = s.mem := rfl
@[simp] theorem State.setWait_pix (w : Option Reg) : (s.setWait w).pix = s.pix := rfl
@[simp] theorem State.setWait_draws (w : Option Reg) : (s.setWait w).draws = s.draws := rfl
@[simp] theorem State.setWait_schedule (w : Option Reg) : (s.setWait w).schedule = s.schedule := rfl

@[simp] theorem State.setPC_v (w : Word) : (s.setPC w).v = s.v := rfl
@[simp] theorem State.setPC_i (w : Word) : (s.setPC w).i = s.i := rfl
@[simp] theorem State.setPC_sp (w : Word) : (s.setPC w).sp = s.sp := rfl
@[simp] theorem State.setPC_stack (w : Word) : (s.setPC w).stack = s.stack := rfl
@[simp] theorem State.setPC_dt (w : Word) : (s.setPC w).dt = s.dt := rfl
@[simp] theorem State.setPC_st (w : Word) : (s.setPC w).st = s.st := rfl
@[simp] theorem State.setPC_key (w : Word) : (s.setPC w).key = s.key := rfl
@[simp] theorem State.setPC_wait (w : Word) : (s.setPC w).wait = s.wait := rfl
@[simp] theorem State.setPC_mem (w : Word) : (s.setPC w).mem = s.mem := rfl
@[simp] theorem State.setPC_pix (w : Word) : (s.setPC w).pix = s.pix := rfl
@[simp] theorem State.setPC_draws (w : Word) : (s.setPC w).draws = s.draws := rfl
@[simp] theorem State.setPC_schedule (w : Word) : (s.setPC w).schedule = s.schedule := rfl

@[simp] theorem State.advance_v : s.advance.v = s.v := rfl
@[simp] theorem State.advance_i : s.advance.i = s.i := rfl
@[simp] theorem State.advance_sp : s.advance.sp = s.sp := rfl
@[simp] theorem State.advance_stack : s.advance.stack = s.stack := rfl
@[simp] theorem State.advance_dt : s.advance.dt = s.dt := rfl
@[simp] theorem State.advance_st : s.advance.st = s.st := rfl
@[simp] theorem State.advance_key : s.advance.key = s.key := rfl
@[simp] theorem State.advance_wait : s.advance.wait = s.wait := rfl
@[simp] theorem State.advance_mem : s.advance.mem = s.mem := rfl
@[simp] theorem State.advance_pix : s.advance.pix = s.pix := rfl
@[simp] theorem State.advance_draws : s.advance.draws = s.draws := rfl
@[simp] theorem State.advance_schedule : s.advance.schedule = s.schedule := rfl

@[simp] theorem State.skip_v : s.skip.v = s.v := rfl
@[simp] theorem State.skip_i : s.skip.i = s.i := rfl
@[simp] theorem State.skip_sp : s.skip.sp = s.sp := rfl
@[simp] theorem State.skip_stack : s.skip.stack = s.stack := rfl
@[simp] theorem State.skip_dt : s.skip.dt = s.dt := rfl
@[simp] theorem State.skip_st : s.skip.st = s.st := rfl
@[simp] theorem State.skip_key : s.skip.key = s.key := rfl
@[simp] theorem State.skip_wait : s.skip.wait = s.wait := rfl
@[simp] theorem State.skip_mem : s.skip.mem = s.mem := rfl
@[simp] theorem State.skip_pix : s.skip.pix = s.pix := rfl
@[simp] theorem State.skip_draws : s.skip.draws = s.draws := rfl
@[simp] theorem State.skip_schedule : s.skip.schedule = s.schedule := rfl

@[simp] theorem State.setReg_v (x : Reg) (b : Byte) : (s.setReg x b).v = s.v.set x.val b := rfl
@[simp] theorem State.setI_i (w : Word) : (s.setI w).i = w := rfl
@[simp] theorem State.setDT_dt (b : Byte) : (s.setDT b).dt = b := rfl
@[simp] theorem State.setST_st (b : Byte) : (s.setST b).st = b := rfl
@[simp] theorem State.setWait_wait (w : Option Reg) : (s.setWait w).wait = w := rfl
@[simp] theorem State.setPC_pc (w : Word) : (s.setPC w).pc = w := rfl
@[simp] theorem State.advance_pc : s.advance.pc = s.pc + 2 := rfl
@[simp] theorem State.skip_pc : s.skip.pc = s.pc + 2 := rfl

@[simp] theorem State.setI_reg (w : Word) (x : Reg) : (s.setI w).reg x = s.reg x := rfl
@[simp] theorem State.setDT_reg (b : Byte) (x : Reg) : (s.setDT b).reg x = s.reg x := rfl
@[simp] theorem State.setST_reg (b : Byte) (x : Reg) : (s.setST b).reg x = s.reg x := rfl
@[simp] theorem State.setWait_reg (w : Option Reg) (x : Reg) : (s.setWait w).reg x = s.reg x := rfl
@[simp] theorem State.setPC_reg (w : Word) (x : Reg) : (s.setPC w).reg x = s.reg x := rfl
@[simp] theorem State.advance_reg (x : Reg) : s.advance.reg x = s.reg x := rfl
@[simp] theorem State.skip_reg (x : Reg) : s.skip.reg x = s.reg x := rfl
@[simp] theorem State.setReg_keyAt (x : Reg) (b : Byte) (k : Key) : (s.setReg x b).keyAt k = s.keyAt k := rfl
@[simp] theorem State.setReg_displayAt (x : Reg) (b : Byte) (xx : Fin 64) (yy : Fin 32) :
    (s.setReg x b).displayAt xx yy = s.displayAt xx yy := rfl
@[simp] theorem State.setI_keyAt (w : Word) (k : Key) : (s.setI w).keyAt k = s.keyAt k := rfl
@[simp] theorem State.setI_displayAt (w : Word) (xx : Fin 64) (yy : Fin 32) :
    (s.setI w).displayAt xx yy = s.displayAt xx yy := rfl
@[simp] theorem State.setDT_keyAt (b : Byte) (k : Key) : (s.setDT b).keyAt k = s.keyAt k := rfl
@[simp] theorem State.setDT_displayAt (b : Byte) (xx : Fin 64) (yy : Fin 32) :
    (s.setDT b).displayAt xx yy = s.displayAt xx yy := rfl
@[simp] theorem State.setST_keyAt (b : Byte) (k : Key) : (s.setST b).keyAt k = s.keyAt k := rfl
@[simp] theorem State.setST_displayAt (b : Byte) (xx : Fin 64) (yy : Fin 32) :
    (s.setST b).displayAt xx yy = s.displayAt xx yy := rfl
@[simp] theorem State.setWait_keyAt (w : Option Reg) (k : Key) : (s.setWait w).keyAt k = s.keyAt k := rfl
@[simp] theorem State.setWait_displayAt (w : Option Reg) (xx : Fin 64) (yy : Fin 32) :
    (s.setWait w).displayAt xx yy = s.displayAt xx yy := rfl
@[simp] theorem State.setPC_keyAt (w : Word) (k : Key) : (s.setPC w).keyAt k = s.keyAt k := rfl
@[simp] theorem State.setPC_displayAt (w : Word) (xx : Fin 64) (yy : Fin 32) :
    (s.setPC w).displayAt xx yy = s.displayAt xx yy := rfl
@[simp] theorem State.advance_keyAt (k : Key) : s.advance.keyAt k = s.keyAt k := rfl
@[simp] theorem State.advance_displayAt  (xx : Fin 64) (yy : Fin 32) :
    s.advance.displayAt xx yy = s.displayAt xx yy := rfl
@[simp] theorem State.skip_keyAt (k : Key) : s.skip.keyAt k = s.keyAt k := rfl
@[simp] theorem State.skip_displayAt  (xx : Fin 64) (yy : Fin 32) :
    s.skip.displayAt xx yy = s.displayAt xx yy := rfl

/-- Reading a register after a register write. -/
theorem State.reg_setReg (x y : Reg) (b : Byte) : (s.setReg x b).reg y = if y = x then b else s.reg y := by
  unfold State.reg State.setReg
  rw [Vector.getElem_set]
  by_cases h : y = x
  · simp [h]
  · rw [if_neg h, if_neg (fun e => h (Fin.ext e.symm))]

@[simp] theorem State.reg_setReg_self (x : Reg) (b : Byte) : (s.setReg x b).reg x = b := by
  simp [State.reg_setReg]

theorem State.reg_setReg_other {x y : Reg} (b : Byte) (h : y ≠ x) : (s.setReg x b).reg y = s.reg y := by
  simp [State.reg_setReg, h]

/-- VF after a result and a flag are written (R161). -/
@[simp] theorem State.setResultFlag_vF (x : Reg) (r : Byte) (f : Bool) :
    (s.setResultFlag x r f).reg vF = flagByte f := by
  simp [State.setResultFlag]

/-- The destination after a result and a flag are written, when it is not VF (R161). -/
theorem State.setResultFlag_reg {x : Reg} (r : Byte) (f : Bool) (h : x ≠ vF) :
    (s.setResultFlag x r f).reg x = r := by
  simp [State.setResultFlag, State.reg_setReg_other _ _ h]

/-- Every other register after a result and a flag are written (R161). -/
theorem State.setResultFlag_other {x y : Reg} (r : Byte) (f : Bool) (hx : y ≠ x) (hf : y ≠ vF) :
    (s.setResultFlag x r f).reg y = s.reg y := by
  simp [State.setResultFlag, State.reg_setReg_other _ _ hf, State.reg_setReg_other _ _ hx]

/-- A conditional skip moves PC and nothing else (R150). -/
theorem State.skipIf_eq (c : Bool) : s.skipIf c = s.setPC (if c then s.pc + 2 else s.pc) := by
  cases c <;> rfl

/-- A register after the block V[k], V[k+1], ... has been loaded: its own byte of the list, if it has one (R187). -/
theorem State.setRegBlock_reg (y : Reg) (bs : List Byte) :
    ∀ (s : State) (k : Nat), k + bs.length ≤ 16 →
      (s.setRegBlock k bs).reg y = if k ≤ y.val ∧ y.val < k + bs.length then bs.getD (y.val - k) 0 else s.reg y := by
  induction bs with
  | nil => intro s k _; simp [State.setRegBlock]
  | cons b bs ih =>
    intro s k hk
    simp only [List.length_cons] at hk ⊢
    have h16 : k < 16 := by omega
    rw [State.setRegBlock, dif_pos h16, ih _ _ (by omega), State.reg_setReg]
    by_cases hy : y = ⟨k, h16⟩
    · subst hy; simp
    · have hne : y.val ≠ k := fun e => hy (Fin.ext e)
      by_cases hr : k + 1 ≤ y.val ∧ y.val < k + 1 + bs.length
      · rw [if_pos hr, if_pos (by omega), show y.val - k = (y.val - (k + 1)) + 1 by omega]; simp
      · rw [if_neg hr, if_neg hy, if_neg (by omega)]

/-- Loading a block of registers changes the register file and no other field (R187). -/
theorem State.setRegBlock_eq (bs : List Byte) :
    ∀ (s : State) (k : Nat), ∃ v', s.setRegBlock k bs = { s with v := v' } := by
  induction bs with
  | nil => intro s k; exact ⟨s.v, rfl⟩
  | cons b bs ih =>
    intro s k
    rw [State.setRegBlock]
    split
    · next h => exact ih (s.setReg ⟨k, h⟩ b) (k + 1)
    · exact ⟨s.v, rfl⟩

end Sys2Proof.Machine
end

