-- ==== Sys2Proof/Laws/Ops.lean ====
section
/-! SUPPORT. Everything each shared operation can do, said once: the call stack, the keypad, one cell of the blitter,
the step event, the delivery of an event and of a whole run. -/

namespace Sys2Proof.Machine

/-- All a push can do (R144): write the entry at SP and go on, or raise StackOverflow in the same state. -/
theorem pushThen_cases (w : Word) (s : State) (k : State → State) :
    (∃ h : s.sp.toNat < 16,
      pushThen w s k = .next (k { s with stack := s.stack.set s.sp.toNat w h, sp := s.sp + 1 })) ∨
    (16 ≤ s.sp.toNat ∧ pushThen w s k = .fault (.stackOverflow s)) := by
  by_cases h : s.sp.toNat < 16
  · exact .inl ⟨h, by rw [pushThen, dif_pos h]⟩
  · exact .inr ⟨by omega, by rw [pushThen, dif_neg h, raise]⟩

/-- All a pop can do (R142): go on with the newest entry, raise StackUnderflow in the same state, or refuse an SP the
spec says is unreachable. -/
theorem popThen_cases (s : State) (k : Word → State → State) :
    (∃ h : s.sp.toNat - 1 < 16, s.sp ≠ 0 ∧
      popThen s k = .next (k (s.stack[s.sp.toNat - 1]'h) { s with sp := s.sp - 1 })) ∨
    (s.sp = 0 ∧ popThen s k = .fault (.stackUnderflow s)) ∨
    (17 ≤ s.sp.toNat ∧ popThen s k = .refused .spOutOfRange) := by
  by_cases h0 : s.sp = 0
  · exact .inr (.inl ⟨h0, by rw [popThen, if_pos h0, raise]⟩)
  · by_cases h : s.sp.toNat - 1 < 16
    · exact .inl ⟨h, h0, by rw [popThen, if_neg h0, dif_pos h]⟩
    · exact .inr (.inr ⟨by omega, by rw [popThen, if_neg h0, dif_neg h]⟩)

/-- All a key test can do (R155): go on with the key, or raise InvalidKeyIndex in the same state. -/
theorem keyThen_cases (b : Byte) (s : State) (k : Key → State) :
    (∃ h : b.toNat < 16, keyThen b s k = .next (k ⟨b.toNat, h⟩)) ∨
    (16 ≤ b.toNat ∧ keyThen b s k = .fault (.invalidKeyIndex s)) := by
  by_cases h : b.toNat < 16
  · exact .inl ⟨h, by rw [keyThen, dif_pos h]⟩
  · exact .inr ⟨by omega, by rw [keyThen, dif_neg h, raise]⟩

/-- Reading a pixel after a pixel write. -/
theorem Display.pixel_setPixel (d : Display) (xx xx' : Fin 64) (yy yy' : Fin 32) (b : Bool) :
    Display.pixel (Display.setPixel d xx yy b) xx' yy' =
      if xx' = xx ∧ yy' = yy then b else Display.pixel d xx' yy' := by
  unfold Display.pixel Display.setPixel
  rw [Vector.getElem_set]
  by_cases hy : yy' = yy
  · subst hy
    rw [if_pos rfl, Vector.getElem_set]
    by_cases hx : xx' = xx
    · subst hx; simp
    · rw [if_neg fun e => hx (Fin.ext e.symm), if_neg fun e => hx e.1]
  · rw [if_neg fun e => hy (Fin.ext e.symm), if_neg fun e => hy e.2]

@[simp] theorem Display.pixel_clear (xx : Fin 64) (yy : Fin 32) : Display.pixel Display.clear xx yy = false := by
  simp [Display.pixel, Display.clear]

/-- One cell of the blitter, on any pixel (R190). -/
theorem blitPixel_pixel (xx xx' : Fin 64) (yy yy' : Fin 32) (b : Bool) (dc : Display × Bool) :
    Display.pixel (blitPixel xx yy b dc).1 xx' yy' =
      if xx' = xx ∧ yy' = yy then Display.pixel dc.1 xx' yy' ^^ b else Display.pixel dc.1 xx' yy' := by
  rw [blitPixel, Display.pixel_setPixel]
  split
  · next h => rw [h.1, h.2]
  · rfl

/-- The keypad after a key write. -/
theorem keyAt_set (s : State) (j k : Key) (b : Bool) :
    State.keyAt { s with key := s.key.set k.val b } j = if j = k then b else s.keyAt j := by
  unfold State.keyAt
  rw [Vector.getElem_set]
  by_cases h : j = k
  · subst h; simp
  · rw [if_neg fun e => h (Fin.ext e.symm), if_neg h]

/-- All a `step` event can do (R127, R217), the four tests in their order. -/
theorem stepEvent_cases (s : State) :
    (s.wait ≠ none ∧ stepEvent s = .next s) ∨
    (s.wait = none ∧ ¬ s.pc.toNat ≤ Config.lastFetch ∧ stepEvent s = .fault (.outOfBounds s)) ∨
    (s.wait = none ∧ s.pc.toNat ≤ Config.lastFetch ∧ decode s.fetchWord = none ∧
      stepEvent s = .fault (.decodeFailure s.fetchWord s)) ∨
    (∃ i, s.wait = none ∧ s.pc.toNat ≤ Config.lastFetch ∧ decode s.fetchWord = some i ∧
      stepEvent s = exec i s.advance) := by
  unfold stepEvent
  cases hw : s.wait with
  | some r => simp
  | none =>
    by_cases hp : s.pc.toNat ≤ Config.lastFetch
    · have hc : s.canFetch = true := decide_eq_true hp
      dsimp only
      rw [if_pos hc]
      cases hd : decode s.fetchWord with
      | none => exact .inr (.inr (.inl ⟨rfl, hp, rfl, rfl⟩))
      | some i => exact .inr (.inr (.inr ⟨i, rfl, hp, rfl, rfl⟩))
    · have hc : s.canFetch = false := decide_eq_false hp
      dsimp only
      rw [if_neg (by simp [hc])]
      exact .inr (.inl ⟨rfl, hp, rfl⟩)

/-- One move with no event listed is a `step` event (R242; log 1). -/
theorem step_of_schedule_nil {s : State} (h : s.schedule = []) : step s = stepEvent s := by
  simp [step, nextEvent, h, deliver]

/-- One move with events listed delivers the oldest (R15, R242; log 1). -/
theorem step_of_schedule_cons {s : State} {e : Event} {rest : List Event} (h : s.schedule = e :: rest) :
    step s = deliver e { s with schedule := rest } := by
  simp [step, nextEvent, h]

/-- No event leaves the state as it is and returns no fault. -/
@[simp] theorem deliverAll_nil (s : State) : deliverAll [] s = some (s, []) := rfl

/-- The events of a run in two parts: the second part goes on from the state the first left, and its faults come after
the first's (R221 (c)). -/
theorem deliverAll_append (es es' : List Event) (s : State) :
    deliverAll (es ++ es') s =
      (deliverAll es s).bind fun r => (deliverAll es' r.1).map fun q => (q.1, r.2 ++ q.2) := by
  induction es generalizing s with
  | nil => simp
  | cons e es ih =>
    rw [List.cons_append, deliverAll, deliverAll]
    cases deliver e s with
    | next t => exact ih t
    | fault f =>
      dsimp only
      rw [ih f.left]
      cases deliverAll es f.left with
      | none => rfl
      | some r => cases h : deliverAll es' r.1 <;> simp [h]
    | refused r => rfl

end Sys2Proof.Machine
end

