-- ==== Sys2Proof/Laws/Frame.lean ====
section
/-! SUPPORT. The frame of each named update, in the words of Safety.lean: what it leaves unchanged. -/

namespace Sys2Proof.Machine

/-- Every part of a state is the same as itself. -/
theorem Part.same_refl (s : State) (p : Part) : p.same s s := by cases p <;> rfl

/-- Nothing changes from a state to itself. -/
theorem Frame.refl (touched : Part → Prop) (s : State) : Frame touched s s := fun p _ => Part.same_refl s p

/-- A frame may name more than was touched. -/
theorem Frame.mono {a b : Part → Prop} {s t : State} (h : Frame a s t) (hab : ∀ p, a p → b p) : Frame b s t :=
  fun p hp => h p fun ha => hp (hab p ha)

/-- Sameness of a part is transitive. -/
theorem Part.same_trans {s t u : State} {p : Part} (h : p.same s t) (k : p.same t u) : p.same s u := by
  cases p <;> exact Eq.trans k h

/-- One frame after another touches what either touches. -/
theorem Frame.trans {a : Part → Prop} {s t u : State} (h : Frame a s t) (k : Frame a t u) : Frame a s u :=
  fun p hp => Part.same_trans (h p hp) (k p hp)

theorem Frame.setReg (s : State) (x : Reg) (b : Byte) : Frame (only (.reg x)) s (s.setReg x b) := by
  intro p hp
  cases p with
  | reg r => exact State.reg_setReg_other s b fun e => hp (by rw [e])
  | _ => rfl

theorem Frame.setResultFlag (s : State) (x : Reg) (r : Byte) (f : Bool) :
    Frame (regAndVF x) s (s.setResultFlag x r f) :=
  ((Frame.setReg s x r).mono fun _ => Or.inl).trans ((Frame.setReg _ vF _).mono fun _ => Or.inr)

theorem Frame.setPC (s : State) (w : Word) : Frame (only .pc) s (s.setPC w) := by
  intro p hp
  cases p with
  | pc => exact absurd rfl hp
  | _ => rfl

theorem Frame.advance (s : State) : Frame (only .pc) s s.advance := Frame.setPC s _

theorem Frame.skipIf (s : State) (c : Bool) : Frame (only .pc) s (s.skipIf c) := by
  rw [State.skipIf_eq]; exact Frame.setPC s _

theorem Frame.setI (s : State) (w : Word) : Frame (only .i) s (s.setI w) := by
  intro p hp
  cases p with
  | i => exact absurd rfl hp
  | _ => rfl

theorem Frame.setDT (s : State) (b : Byte) : Frame (only .dt) s (s.setDT b) := by
  intro p hp
  cases p with
  | dt => exact absurd rfl hp
  | _ => rfl

theorem Frame.setST (s : State) (b : Byte) : Frame (only .st) s (s.setST b) := by
  intro p hp
  cases p with
  | st => exact absurd rfl hp
  | _ => rfl

theorem Frame.setWait (s : State) (w : Option Reg) : Frame (only .wait) s (s.setWait w) := by
  intro p hp
  cases p with
  | wait => exact absurd rfl hp
  | _ => rfl

theorem Frame.tick (s : State) : Frame (only .dt) s s.tick := by
  unfold State.tick
  split
  · exact Frame.refl _ s
  · exact Frame.setDT s _

/-- Writing a block of bytes touches those bytes and nothing else. -/
theorem Frame.writeBytes {s : State} (hm : Memory.wf s.mem) (a : Nat) (xs : List Byte) :
    Frame (fun p => ∃ k < xs.length, p = .mem (a + k)) s { s with mem := Memory.writeBytes s.mem a xs } := by
  intro p hp
  cases p with
  | mem b =>
    show Memory.read (Memory.writeBytes s.mem a xs) b = Memory.read s.mem b
    rw [Memory.read_writeBytes b hm.1, if_neg]
    intro h
    exact hp ⟨b - a, by omega, by rw [Nat.add_sub_cancel' h.1]⟩
  | _ => rfl

/-- Replacing the display touches pixels and nothing else. -/
theorem Frame.setPix (s : State) (d : Display) :
    Frame (fun p => ∃ xx yy, p = .pix xx yy) s { s with pix := d } := by
  intro p hp
  cases p with
  | pix xx yy => exact absurd ⟨xx, yy, rfl⟩ hp
  | _ => rfl

/-- Writing a key touches that key and nothing else. -/
theorem Frame.setKey (s : State) (k : Key) (b : Bool) :
    Frame (only (.key k)) s { s with key := s.key.set k.val b } := by
  intro p hp
  cases p with
  | key j => exact (keyAt_set s j k b).trans (if_neg fun e => hp (by rw [e]))
  | _ => rfl

/-- Loading a block of registers touches those registers and nothing else. -/
theorem Frame.setRegBlock (s : State) (bs : List Byte) (h : bs.length ≤ 16) :
    Frame (fun p => ∃ k : Reg, k.val < bs.length ∧ p = .reg k) s (s.setRegBlock 0 bs) := by
  obtain ⟨v', e⟩ := State.setRegBlock_eq bs s 0
  intro p hp
  cases p with
  | reg r =>
    show (s.setRegBlock 0 bs).reg r = s.reg r
    rw [State.setRegBlock_reg r bs s 0 (by omega), if_neg]
    intro hr
    exact hp ⟨r, by omega, rfl⟩
  | _ => rw [e]; rfl

end Sys2Proof.Machine
end

