-- ==== Sys2Proof/Laws/Exec.lean ====
section
/-! SUPPORT. The inversion lemma of `exec`: whatever its result, the state an instruction leaves has one of the shapes
of `Leaves`; and of the `step` event, from which the whole-machine statements follow by cases. -/

namespace Sys2Proof.Machine

/-- What the state left by an instruction can look like, with the instructions that can leave it so. -/
inductive Leaves (s : State) : Instr → State → Prop where
  | same (i : Instr) : Leaves s i s
  | regs (i : Instr) (v : Vector Byte 16) : Leaves s i { s with v := v }
  | skip (i : Instr) : Leaves s i (s.setPC (s.pc + 2))
  | jump (i : Instr) (p : Word) (h : p.toNat ≤ 0x10FE) : Leaves s i (s.setPC p)
  | push (nnn : Addr12) (h : s.sp.toNat < 16) :
      Leaves s (.call nnn)
        { s with stack := s.stack.set s.sp.toNat s.pc h, sp := s.sp + 1, pc := zextAddr nnn }
  | pop (h : s.sp.toNat - 1 < 16) (h0 : s.sp ≠ 0) :
      Leaves s .ret { s with pc := s.stack[s.sp.toNat - 1], sp := s.sp - 1 }
  | ldI (nnn : Addr12) : Leaves s (.ldI nnn) (s.setI (zextAddr nnn))
  | addIR (x : Reg) (w : Word) : Leaves s (.addIR x) (s.setI w)
  | ldFR (x : Reg) (w : Word) : Leaves s (.ldFR x) (s.setI w)
  | ldDTR (x : Reg) : Leaves s (.ldDTR x) (s.setDT (s.reg x))
  | ldSTR (x : Reg) : Leaves s (.ldSTR x) (s.setST (s.reg x))
  | ldRK (x : Reg) : Leaves s (.ldRK x) (s.setWait (some x))
  | ldBR (x : Reg) (xs : List Byte) (h : xs.length = 0 ∨ s.base + xs.length ≤ Config.memSize) :
      Leaves s (.ldBR x) { s with mem := Memory.writeBytes s.mem s.base xs }
  | ldIIR (x : Reg) (xs : List Byte) (h : xs.length = 0 ∨ s.base + xs.length ≤ Config.memSize) :
      Leaves s (.ldIIR x) { s with mem := Memory.writeBytes s.mem s.base xs }
  | cls : Leaves s .cls { s with pix := Display.clear }
  | drw (x y : Reg) (n : Fin 16) (v : Vector Byte 16) (d : Display) : Leaves s (.drw x y n) { s with v := v, pix := d }
  | rnd (x : Reg) (kk : Byte) (v : Vector Byte 16) : Leaves s (.rnd x kk) { s with v := v, draws := s.draws + 1 }

theorem zextAddr_toNat (nnn : Addr12) : (zextAddr nnn).toNat = nnn.toNat := by
  have := nnn.isLt
  simp [zextAddr]; omega

theorem zextByte_toNat (b : Byte) : (zextByte b).toNat = b.toNat := by
  have := b.isLt
  simp [zextByte]; omega

/-- A conditional skip leaves one of two shapes. -/
theorem Leaves.skipIf (s : State) (i : Instr) (c : Bool) : Leaves s i (s.skipIf c) := by
  cases c
  · exact .same i
  · exact .skip i

/-- Everything an instruction can leave. -/
theorem exec_leaves {i : Instr} {s t : State} (h : stateLeft (exec i s) = some t) : Leaves s i t := by
  cases i with
  | sys nnn => cases h; exact .same _
  | cls => cases h; exact .cls
  | jp nnn =>
    cases h
    refine .jump _ _ ?_
    have := nnn.isLt
    rw [zextAddr_toNat]; omega
  | jpV0 nnn =>
    cases h
    refine .jump _ _ ?_
    have := nnn.isLt; have := (s.reg 0).isLt
    rw [BitVec.toNat_add, zextAddr_toNat, zextByte_toNat]; omega
  | ret =>
    simp only [exec, execRet] at h
    rcases popThen_cases s (fun t s' => s'.setPC t) with ⟨hh, h0, e⟩ | ⟨_, e⟩ | ⟨_, e⟩ <;> rw [e] at h <;> cases h
    · exact .pop hh h0
    · exact .same _
  | call nnn =>
    simp only [exec, execCall] at h
    rcases pushThen_cases s.pc s (fun s' => s'.setPC (zextAddr nnn)) with ⟨hh, e⟩ | ⟨_, e⟩ <;> rw [e] at h <;> cases h
    · exact .push nnn hh
    · exact .same _
  | seRB x kk => cases h; exact .skipIf ..
  | sneRB x kk => cases h; exact .skipIf ..
  | seRR x y => cases h; exact .skipIf ..
  | sneRR x y => cases h; exact .skipIf ..
  | skp x =>
    simp only [exec, execSkp] at h
    rcases keyThen_cases (s.reg x) s (fun k => s.skipIf (s.keyAt k)) with ⟨_, e⟩ | ⟨_, e⟩ <;> rw [e] at h <;> cases h
    · exact .skipIf ..
    · exact .same _
  | sknp x =>
    simp only [exec, execSknp] at h
    rcases keyThen_cases (s.reg x) s (fun k => s.skipIf (!s.keyAt k)) with ⟨_, e⟩ | ⟨_, e⟩ <;> rw [e] at h <;> cases h
    · exact .skipIf ..
    · exact .same _
  | ldI nnn => cases h; exact .ldI nnn
  | addIR x => cases h; exact .addIR x _
  | ldFR x => cases h; exact .ldFR x _
  | ldDTR x => cases h; exact .ldDTR x
  | ldSTR x => cases h; exact .ldSTR x
  | ldRK x => cases h; exact .ldRK x
  | ldBR x =>
    simp only [exec, execLdBR] at h
    rcases storeBytes_cases s.base (decimalDigits (s.reg x)) s with ⟨c, e⟩ | ⟨_, e⟩ <;> rw [e] at h <;> cases h
    · exact .ldBR x _ c
    · exact .same _
  | ldIIR x =>
    simp only [exec, execLdIIR] at h
    rcases storeBytes_cases s.base (s.regBlock x) s with ⟨c, e⟩ | ⟨_, e⟩ <;> rw [e] at h <;> cases h
    · exact .ldIIR x _ c
    · exact .same _
  | ldRII x =>
    simp only [exec, execLdRII] at h
    rcases withBytes_cases s.base (x.val + 1) s (fun bytes => .next (s.setRegBlock 0 bytes)) with ⟨_, e⟩ | ⟨_, e⟩ <;>
      rw [e] at h <;> cases h
    · obtain ⟨v, e⟩ := State.setRegBlock_eq (Memory.readBytes s.mem s.base (x.val + 1)) s 0
      rw [e]; exact .regs _ v
    · exact .same _
  | drw x y n =>
    simp only [exec, execDrw] at h
    rcases withBytes_cases s.base n.val s (fun bytes =>
        .next ({ s with pix := (draw (s.reg x).toNat (s.reg y).toNat bytes s.pix).1 }.setReg vF
          (flagByte (draw (s.reg x).toNat (s.reg y).toNat bytes s.pix).2))) with ⟨_, e⟩ | ⟨_, e⟩ <;>
      rw [e] at h <;> cases h
    · exact .drw x y n _ _
    · exact .same _
  | rnd x kk => cases h; exact .rnd x kk _
  | _ => cases h; exact .regs _ _

/-- Everything a `step` event can leave: the state it met, or what an instruction leaves of that state advanced. -/
theorem stepEvent_leaves {s t : State} (h : stateLeft (stepEvent s) = some t) :
    t = s ∨ ∃ i, s.executes i ∧ Leaves s.advance i t := by
  rcases stepEvent_cases s with ⟨_, e⟩ | ⟨_, _, e⟩ | ⟨_, _, _, e⟩ | ⟨i, h1, h2, h3, e⟩ <;> rw [e] at h
  · cases h; exact .inl rfl
  · cases h; exact .inl rfl
  · cases h; exact .inl rfl
  · exact .inr ⟨i, ⟨h1, h2, h3⟩, exec_leaves h⟩

/-- A step event at a state that executes `i` is `exec i` on the state advanced. -/
theorem stepEvent_of_executes {s : State} {i : Instr} (h : s.executes i) : stepEvent s = exec i s.advance := by
  obtain ⟨h1, h2, h3⟩ := h
  rcases stepEvent_cases s with ⟨e, _⟩ | ⟨_, e, _⟩ | ⟨_, _, e, _⟩ | ⟨j, _, _, e, e'⟩
  · exact absurd h1 e
  · exact absurd h2 e
  · rw [h3] at e; cases e
  · rw [h3] at e; cases e; exact e'

/-- The advance does not wrap where an instruction can be fetched (R124). -/
theorem advance_pc_toNat {s : State} (h : s.pc.toNat ≤ Config.lastFetch) : s.advance.pc.toNat = s.pc.toNat + 2 := by
  simp only [Config.lastFetch] at h
  simp; omega

/-- A word of two bytes as a number: the first is the more significant (R60). -/
theorem wordOf_toNat (hi lo : Byte) : (wordOf hi lo).toNat = 256 * hi.toNat + lo.toNat := by
  rw [wordOf, BitVec.toNat_append, ← Nat.shiftLeft_add_eq_or_of_lt lo.isLt, Nat.shiftLeft_eq]; omega

end Sys2Proof.Machine
end

