-- ==== Sys2Proof/Laws/PerInstr.lean ====
section
/-! SUPPORT. Per-instruction family `TableRow`: the encoder's word of an instruction carries the fixed bits of that
instruction's row of the opcode table (the mask and match columns under R103; R108). -/

namespace Sys2Proof.Laws.TableRow

/-- The word of a well-formed instruction matches its row: `(w & mask) = match`. -/
def Statement (i : Instr) : Prop := WellFormed i → encode i &&& (tableRow i).1 = (tableRow i).2

theorem mask_packNNN (a : BitVec 4) (nnn : Addr12) : packNNN a nnn &&& 0xF000 = packNNN a 0 := by
  apply BitVec.eq_of_getLsbD_eq
  intro i hi
  simp only [packNNN, BitVec.getLsbD_and, BitVec.getLsbD_append]
  interval_cases i <;> simp

theorem mask_packXKK (a : BitVec 4) (x : Reg) (kk : Byte) : packXKK a x kk &&& 0xF000 = packXKK a 0 0 := by
  apply BitVec.eq_of_getLsbD_eq
  intro i hi
  simp only [packXKK, BitVec.getLsbD_and, BitVec.getLsbD_append]
  interval_cases i <;> simp

theorem mask_packX (a : BitVec 4) (x : Reg) (kk : Byte) : packXKK a x kk &&& 0xF0FF = packXKK a 0 kk := by
  apply BitVec.eq_of_getLsbD_eq
  intro i hi
  simp only [packXKK, BitVec.getLsbD_and, BitVec.getLsbD_append]
  interval_cases i <;> simp

theorem mask_packXY (a : BitVec 4) (x y : Reg) (z : Fin 16) : packXYZ a x y z &&& 0xF00F = packXYZ a 0 0 z := by
  apply BitVec.eq_of_getLsbD_eq
  intro i hi
  simp only [packXYZ, BitVec.getLsbD_and, BitVec.getLsbD_append]
  interval_cases i <;> simp

theorem mask_packXYZ (a : BitVec 4) (x y : Reg) (z : Fin 16) : packXYZ a x y z &&& 0xF000 = packXYZ a 0 0 0 := by
  apply BitVec.eq_of_getLsbD_eq
  intro i hi
  simp only [packXYZ, BitVec.getLsbD_and, BitVec.getLsbD_append]
  interval_cases i <;> simp

theorem sys (nnn : Addr12) : Statement (.sys nnn) := fun _ => mask_packNNN ..
theorem cls : Statement .cls := fun _ => rfl
theorem ret : Statement .ret := fun _ => rfl
theorem jp (nnn : Addr12) : Statement (.jp nnn) := fun _ => mask_packNNN ..
theorem call (nnn : Addr12) : Statement (.call nnn) := fun _ => mask_packNNN ..
theorem seRB (x : Reg) (kk : Byte) : Statement (.seRB x kk) := fun _ => mask_packXKK ..
theorem sneRB (x : Reg) (kk : Byte) : Statement (.sneRB x kk) := fun _ => mask_packXKK ..
theorem seRR (x : Reg) (y : Reg) : Statement (.seRR x y) := fun _ => mask_packXY ..
theorem ldRB (x : Reg) (kk : Byte) : Statement (.ldRB x kk) := fun _ => mask_packXKK ..
theorem addRB (x : Reg) (kk : Byte) : Statement (.addRB x kk) := fun _ => mask_packXKK ..
theorem ldRR (x : Reg) (y : Reg) : Statement (.ldRR x y) := fun _ => mask_packXY ..
theorem or (x : Reg) (y : Reg) : Statement (.or x y) := fun _ => mask_packXY ..
theorem and (x : Reg) (y : Reg) : Statement (.and x y) := fun _ => mask_packXY ..
theorem xor (x : Reg) (y : Reg) : Statement (.xor x y) := fun _ => mask_packXY ..
theorem add (x : Reg) (y : Reg) : Statement (.add x y) := fun _ => mask_packXY ..
theorem sub (x : Reg) (y : Reg) : Statement (.sub x y) := fun _ => mask_packXY ..
theorem shr (x : Reg) (y : Reg) : Statement (.shr x y) := fun _ => mask_packXY ..
theorem subn (x : Reg) (y : Reg) : Statement (.subn x y) := fun _ => mask_packXY ..
theorem shl (x : Reg) (y : Reg) : Statement (.shl x y) := fun _ => mask_packXY ..
theorem sneRR (x : Reg) (y : Reg) : Statement (.sneRR x y) := fun _ => mask_packXY ..
theorem ldI (nnn : Addr12) : Statement (.ldI nnn) := fun _ => mask_packNNN ..
theorem jpV0 (nnn : Addr12) : Statement (.jpV0 nnn) := fun _ => mask_packNNN ..
theorem rnd (x : Reg) (kk : Byte) : Statement (.rnd x kk) := fun _ => mask_packXKK ..
theorem drw (x : Reg) (y : Reg) (n : Fin 16) : Statement (.drw x y n) := fun _ => mask_packXYZ ..
theorem skp (x : Reg) : Statement (.skp x) := fun _ => mask_packX ..
theorem sknp (x : Reg) : Statement (.sknp x) := fun _ => mask_packX ..
theorem ldRDT (x : Reg) : Statement (.ldRDT x) := fun _ => mask_packX ..
theorem ldRK (x : Reg) : Statement (.ldRK x) := fun _ => mask_packX ..
theorem ldDTR (x : Reg) : Statement (.ldDTR x) := fun _ => mask_packX ..
theorem ldSTR (x : Reg) : Statement (.ldSTR x) := fun _ => mask_packX ..
theorem addIR (x : Reg) : Statement (.addIR x) := fun _ => mask_packX ..
theorem ldFR (x : Reg) : Statement (.ldFR x) := fun _ => mask_packX ..
theorem ldBR (x : Reg) : Statement (.ldBR x) := fun _ => mask_packX ..
theorem ldIIR (x : Reg) : Statement (.ldIIR x) := fun _ => mask_packX ..
theorem ldRII (x : Reg) : Statement (.ldRII x) := fun _ => mask_packX ..

end Sys2Proof.Laws.TableRow
end

