-- ==== Sys2Proof/Tests/Slice0.lean ====
section
/-! SUPPORT. Tests: expected results are hand-copied from spec/95_test_vectors.md and the encodings of
spec/30_encoding.md, never from the model. Then, for each obligation with hypotheses, witnesses that meet them. -/

namespace Sys2Proof.Tests

open Sys2Proof Sys2Proof.Machine

/-! ## Helpers: small states and single moves -/

/-- PC = 0x200, all else as after reset: the start of the vectors of 95_test_vectors.md section 2. -/
def start : State := State.reset.jump 0x200

/-- The state with an instruction word at PC. -/
def at_ (w : Nat) (s : State) : State := s.withFetchWord 16 w

/-- What one move leaves, whatever its result. -/
def after (s : State) : Option State := stateLeft (step s)

/-- One instruction word run on a state. -/
def run (w : Nat) (s : State) : Option State := after (at_ w s)

/-- The number of the fault one move raises, 0 for none (R210 to R215). -/
def faultOf (s : State) : Nat :=
  match step s with
  | .fault f => f.code
  | _ => 0

/-- Registers set in turn. -/
def withRegs (s : State) (l : List (Reg × Byte)) : State := l.foldl (fun s p => s.setReg p.1 p.2) s

/-- Bytes written from an address on. -/
def withMem (a : Nat) (l : List Byte) (s : State) : State := { s with mem := Memory.writeBytes s.mem a l }

/-- One pixel set. -/
def withPixel (s : State) (xx : Fin 64) (yy : Fin 32) : State := { s with pix := Display.setPixel s.pix xx yy true }

/-- The pixels of one row that are set. -/
def rowOf (s : State) (yy : Fin 32) : List Nat := (List.finRange 64).filterMap fun xx =>
  if s.displayAt xx yy then some xx.val else none

/-- No pixel is set. -/
def isClear (s : State) : Bool := (List.finRange 32).all fun yy => (rowOf s yy).isEmpty

/-! ## WellFormed smoke tests: an ill-formed term for each check (R98) -/

theorem test_sys_0E0_is_ill_formed : ¬ WellFormed (.sys 0x0E0) := by decide
theorem test_sys_0EE_is_ill_formed : ¬ WellFormed (.sys 0x0EE) := by decide
theorem test_sys_0E1_is_well_formed : WellFormed (.sys 0x0E1) := by decide
theorem test_cls_is_well_formed : WellFormed .cls := by decide

/-! ## Decoding: one word per constructor, written from the encodings of 30_encoding.md -/

theorem test_decode_sys : decode 0x0FFF = some (.sys 0xFFF) := by decide
theorem test_decode_cls : decode 0x00E0 = some .cls := by decide
theorem test_decode_ret : decode 0x00EE = some .ret := by decide
theorem test_decode_jp : decode 0x1FFF = some (.jp 0xFFF) := by decide
theorem test_decode_call : decode 0x2ABC = some (.call 0xABC) := by decide
theorem test_decode_seRB : decode 0x3A7F = some (.seRB 0xA 0x7F) := by decide
theorem test_decode_sneRB : decode 0x4105 = some (.sneRB 1 0x05) := by decide
theorem test_decode_seRR : decode 0x5AB0 = some (.seRR 0xA 0xB) := by decide
theorem test_decode_ldRB : decode 0x6A2F = some (.ldRB 0xA 0x2F) := by decide
theorem test_decode_addRB : decode 0x7F01 = some (.addRB 0xF 0x01) := by decide
theorem test_decode_ldRR : decode 0x8310 = some (.ldRR 3 1) := by decide
theorem test_decode_or : decode 0x8121 = some (.or 1 2) := by decide
theorem test_decode_and : decode 0x8122 = some (.and 1 2) := by decide
theorem test_decode_xor : decode 0x8123 = some (.xor 1 2) := by decide
theorem test_decode_add : decode 0x81F4 = some (.add 1 0xF) := by decide
theorem test_decode_sub : decode 0x8F25 = some (.sub 0xF 2) := by decide
theorem test_decode_shr : decode 0x8126 = some (.shr 1 2) := by decide
theorem test_decode_subn : decode 0x8127 = some (.subn 1 2) := by decide
theorem test_decode_shl : decode 0x8ABE = some (.shl 0xA 0xB) := by decide
theorem test_decode_sneRR : decode 0x9AB0 = some (.sneRR 0xA 0xB) := by decide
theorem test_decode_ldI : decode 0xA300 = some (.ldI 0x300) := by decide
theorem test_decode_jpV0 : decode 0xBFFF = some (.jpV0 0xFFF) := by decide
theorem test_decode_rnd : decode 0xC10F = some (.rnd 1 0x0F) := by decide
theorem test_decode_drw : decode 0xD125 = some (.drw 1 2 5) := by decide
theorem test_decode_skp : decode 0xE39E = some (.skp 3) := by decide
theorem test_decode_sknp : decode 0xE3A1 = some (.sknp 3) := by decide
theorem test_decode_ldRDT : decode 0xF307 = some (.ldRDT 3) := by decide
theorem test_decode_ldRK : decode 0xF50A = some (.ldRK 5) := by decide
theorem test_decode_ldDTR : decode 0xF015 = some (.ldDTR 0) := by decide
theorem test_decode_ldSTR : decode 0xF018 = some (.ldSTR 0) := by decide
theorem test_decode_addIR : decode 0xF21E = some (.addIR 2) := by decide
theorem test_decode_ldFR : decode 0xF029 = some (.ldFR 0) := by decide
theorem test_decode_ldBR : decode 0xF033 = some (.ldBR 0) := by decide
theorem test_decode_ldIIR : decode 0xF255 = some (.ldIIR 2) := by decide
theorem test_decode_ldRII : decode 0xFF65 = some (.ldRII 0xF) := by decide

/-- The illegal words of table 2.1 (R104). -/
theorem test_illegal_words :
    [0x5AB1, 0x8AB8, 0x8AB9, 0x8ABA, 0x8ABB, 0x8ABC, 0x8ABD, 0x8ABF, 0x9ABF, 0xE39F, 0xE300, 0xE3A0,
     0xF000, 0xF01F, 0xF075, 0xF085, 0xF0FF].all (fun w => decode w = none) = true := by decide

/-- Words that differ from a legal one in a single field stay legal (0x00E1, 0x0000, 0xD120 of table 2.1). -/
theorem test_decode_neighbours :
    decode 0x00E1 = some (.sys 0x0E1) ∧ decode 0x0000 = some (.sys 0x000) ∧ decode 0xD120 = some (.drw 1 2 0) := by
  decide

/-- Big-endian bytes (R60): 81 26 is SHR, 26 81 is CALL. -/
theorem test_decode_bytes :
    decodeBytes [0x81, 0x26] = .ok (.shr 1 2, []) ∧ decodeBytes [0x26, 0x81, 0x00] = .ok (.call 0x681, [0x00]) := by
  decide

/-- The encoder agrees with the same words, one per operand shape. -/
theorem test_encode_words :
    encode .ret = 0x00EE ∧ encode (.jpV0 0xFFF) = 0xBFFF ∧ encode (.rnd 1 0x0F) = 0xC10F ∧
    encode (.drw 1 2 5) = 0xD125 ∧ encode (.sneRR 0xA 0xB) = 0x9AB0 ∧ encode (.ldRII 0xF) = 0xFF65 := by decide

/-! ## Reset (R50) -/

theorem test_reset_pc_and_sp : State.reset.pc = 0x0000 ∧ State.reset.sp = 0x00 := by decide
theorem test_reset_first_word_is_sys : after State.reset = some (State.reset.jump 0x0002) ∧ faultOf State.reset = 0 := by
  decide

/-! ## Control flow (table 2.2) -/

theorem test_sys : (run 0x0000 start).map (·.pc) = some 0x0202 := by decide
theorem test_jp_odd_target : (run 0x1201 start).map (·.pc) = some 0x0201 := by decide

theorem test_call : (run 0x2300 (start.jump 0x202)).map (fun t => (t.stack[0], t.sp, t.pc)) =
    some (0x0204, 0x01, 0x0300) := by decide
theorem test_call_seventeenth :
    faultOf (at_ 0x2200 { start with sp := 16 }) = 3 ∧
    (run 0x2200 { start with sp := 16 }).map (fun t => (t.sp, t.pc)) = some (16, 0x0202) := by decide

theorem test_ret : (run 0x00EE { start with pc := 0x300, sp := 1, stack := Vector.replicate 16 0x204 }).map
    (fun t => (t.sp, t.pc, t.stack[0])) = some (0x00, 0x0204, 0x0204) := by decide
theorem test_ret_underflow :
    faultOf (at_ 0x00EE start) = 4 ∧ (run 0x00EE start).map (fun t => (t.pc, t.sp)) = some (0x0202, 0x00) := by decide

theorem test_jpV0 : (run 0xB300 (start.setReg 0 0x04)).map (·.pc) = some 0x0304 := by decide
theorem test_jpV0_no_wrap : (run 0xBFFF (start.setReg 0 0xFF)).map (fun t => (t.pc, faultOf t, after t == some t)) =
    some (0x10FE, 2, true) := by decide

/-! ## Skips (table 2.3) -/

theorem test_seRB : (run 0x3000 start).map (·.pc) = some 0x0204 ∧
    (run 0x3000 (start.setReg 0 0x07)).map (·.pc) = some 0x0202 := by decide
theorem test_seRB_last_word : (run 0x3000 (start.jump 0xFFE)).map (fun t => (t.pc, faultOf t)) =
    some (0x1002, 2) := by decide
theorem test_sneRB : (run 0x4105 (start.setReg 1 0x05)).map (·.pc) = some 0x0202 ∧
    (run 0x4106 (start.setReg 1 0x05)).map (·.pc) = some 0x0204 := by decide
theorem test_seRR : (run 0x5120 (withRegs start [(1, 0x33), (2, 0x33)])).map (·.pc) = some 0x0204 ∧
    (run 0x5110 (start.setReg 1 0x77)).map (·.pc) = some 0x0204 := by decide
theorem test_sneRR : (run 0x9120 (withRegs start [(1, 0x01), (2, 0x02)])).map (·.pc) = some 0x0204 ∧
    (run 0x9110 (start.setReg 1 0x77)).map (·.pc) = some 0x0202 := by decide
theorem test_skp : (run 0xE39E ((start.setReg 3 0x05).keyDown 5)).map (·.pc) = some 0x0204 ∧
    (run 0xE39E (start.setReg 3 0x05)).map (·.pc) = some 0x0202 := by decide
theorem test_skp_bad_key : faultOf (at_ 0xE39E (start.setReg 3 0x10)) = 5 ∧
    (run 0xE39E (start.setReg 3 0x10)).map (·.pc) = some 0x0202 := by decide
theorem test_sknp : (run 0xE3A1 (start.setReg 3 0x05)).map (·.pc) = some 0x0204 ∧
    (run 0xE3A1 ((start.setReg 3 0x0F).keyDown 15)).map (·.pc) = some 0x0202 := by decide
theorem test_sknp_bad_key : faultOf (at_ 0xE3A1 (start.setReg 3 0xFF)) = 5 := by decide

/-! ## Load, arithmetic, logic (table 2.4) -/

/-- The word run on registers, then VX and VF of the result. -/
def alu (w : Nat) (l : List (Reg × Byte)) (x : Reg) : Option (Byte × Byte) :=
  (run w (withRegs start l)).map fun t => (t.reg x, t.reg 0xF)

theorem test_ldRB : alu 0x6A2F [(0xF, 1)] 0xA = some (0x2F, 0x01) ∧ alu 0x6F2F [] 0xF = some (0x2F, 0x2F) := by decide
theorem test_addRB : alu 0x70FF [(0, 0x01)] 0 = some (0x00, 1) ∧ alu 0x7020 [(0, 0x10), (0xF, 1)] 0 = some (0x30, 0) ∧
    alu 0x7080 [(0, 0x80)] 0 = some (0x00, 1) := by decide
theorem test_addRB_into_vF : alu 0x7F01 [(0xF, 0xFF)] 0xF = some (0x01, 0x01) ∧
    alu 0x7F01 [(0xF, 0x05)] 0xF = some (0x00, 0x00) := by decide
theorem test_ldRR : alu 0x8310 [(1, 0x15)] 3 = some (0x15, 0x00) := by decide
theorem test_or : alu 0x8121 [(1, 0xF0), (2, 0x0F), (0xF, 0x01)] 1 = some (0xFF, 0x01) := by decide
theorem test_and : alu 0x8122 [(1, 0xF3), (2, 0x3F)] 1 = some (0x33, 0x00) := by decide
theorem test_xor : alu 0x8123 [(1, 0xFF), (2, 0x0F)] 1 = some (0xF0, 0x00) ∧
    alu 0x8113 [(1, 0x5A)] 1 = some (0x00, 0x00) := by decide
theorem test_add : alu 0x8124 [(1, 0xFF), (2, 0x01)] 1 = some (0x00, 1) ∧
    alu 0x8124 [(1, 0xFF), (2, 0xFF)] 1 = some (0xFE, 1) ∧ alu 0x8114 [(1, 0x90)] 1 = some (0x20, 1) := by decide
theorem test_add_with_vF : alu 0x81F4 [(1, 0xFF), (0xF, 0x01)] 1 = some (0x00, 1) ∧
    alu 0x8F24 [(0xF, 0x10), (2, 0x20)] 0xF = some (0x00, 0x00) := by decide
theorem test_sub : alu 0x8125 [(1, 0x01), (2, 0x02)] 1 = some (0xFF, 0) ∧
    alu 0x8125 [(1, 0x07), (2, 0x07)] 1 = some (0x00, 1) := by decide
theorem test_sub_into_vF : alu 0x8F25 [(0xF, 0x05), (2, 0x03)] 0xF = some (0x01, 0x01) ∧
    alu 0x8F25 [(0xF, 0x03), (2, 0x05)] 0xF = some (0x00, 0x00) := by decide
theorem test_shr : alu 0x8126 [(1, 0x05), (2, 0xAA)] 1 = some (0x02, 1) ∧
    alu 0x8126 [(1, 0x80)] 1 = some (0x40, 0) := by decide
theorem test_shr_into_vF : alu 0x8F26 [(0xF, 0x02)] 0xF = some (0x00, 0x00) := by decide
theorem test_subn : alu 0x8127 [(1, 0x03), (2, 0x05)] 1 = some (0x02, 1) ∧
    alu 0x8127 [(1, 0xFF), (2, 0x00)] 1 = some (0x01, 0) := by decide
theorem test_shl : alu 0x812E [(1, 0x81), (2, 0xAA)] 1 = some (0x02, 1) ∧
    alu 0x812E [(1, 0x7F)] 1 = some (0xFE, 0) := by decide
theorem test_shl_into_vF : alu 0x8F2E [(0xF, 0x40)] 0xF = some (0x00, 0x00) := by decide

/-- A zero mask gives zero, whatever is drawn. -/
theorem test_rnd_zero_mask : (run 0xC100 (start.setReg 1 0x55)).map (·.reg 1) = some 0x00 :=
  (show _ = some (Config.rndDraw 0 &&& 0x00) from rfl).trans (by simp)

/-- A full mask gives the draw itself, whatever it is. -/
theorem test_rnd_full_mask : (run 0xC1FF start).map (fun t => t.reg 1) = some (Config.rndDraw 0 &&& 0xFF) := rfl

/-! ## Address register and memory (table 2.5) -/

theorem test_ldI : (run 0xA300 start).map (·.i) = some 0x0300 := by decide
theorem test_addIR_no_flag : (run 0xF21E ((start.setReg 2 0x01).setI 0x0FFF)).map (fun t => (t.i, t.reg 0xF)) =
    some (0x1000, 0) := by decide
theorem test_addIR_wraps : (run 0xF21E ((start.setReg 2 0x02).setI 0xFFFF)).map (·.i) = some 0x0001 := by decide
theorem test_ldFR : (run 0xF029 (start.setReg 0 0x0A)).map (·.i) = some 0x0032 ∧
    (run 0xF029 (start.setReg 0 0xFF)).map (·.i) = some 0x04FB := by decide

theorem test_ldBR : (run 0xF033 ((start.setReg 0 0xEA).setI 0x300)).map (fun t => Memory.readBytes t.mem 0x300 3) =
    some [2, 3, 4] ∧
    (run 0xF033 ((start.setReg 0 0xFF).setI 0xFFD)).map (fun t => Memory.readBytes t.mem 0xFFD 3) =
    some [2, 5, 5] := by decide
theorem test_ldBR_out_of_bounds : faultOf (at_ 0xF033 ((start.setReg 0 0xEA).setI 0xFFE)) = 2 ∧
    (run 0xF033 ((start.setReg 0 0xEA).setI 0xFFE)).map (fun t => (t.pc, Memory.readBytes t.mem 0xFFE 2)) =
    some (0x0202, [0, 0]) := by decide
theorem test_ldIIR : (run 0xF255 ((withRegs start [(0, 0x11), (1, 0x22), (2, 0x33), (3, 0x44)]).setI 0x400)).map
    (fun t => (Memory.readBytes t.mem 0x400 4, t.i)) = some ([0x11, 0x22, 0x33, 0x00], 0x400) := by decide
theorem test_ldIIR_bounds : faultOf (at_ 0xF155 (start.setI 0xFFE)) = 0 ∧ faultOf (at_ 0xF255 (start.setI 0xFFE)) = 2 ∧
    faultOf (at_ 0xFF55 (start.setI 0xFF0)) = 0 ∧ faultOf (at_ 0xF055 (start.setI 0xFFFF)) = 2 := by decide
theorem test_ldRII : (run 0xF265 ((withMem 0x300 [2, 3, 4, 5] start).setI 0x300)).map
    (fun t => (t.reg 0, t.reg 1, t.reg 2, t.reg 3, t.i)) = some (2, 3, 4, 0, 0x300) := by decide
theorem test_ldRII_out_of_bounds : faultOf (at_ 0xFF65 (start.setI 0xFF1)) = 2 := by decide

/-! ## Display (table 2.6) -/

theorem test_cls : (run 0x00E0 ((withPixel start 63 31).setReg 0xF 0x01)).map (fun t => (isClear t, t.reg 0xF)) =
    some (true, 0x01) := by decide

/-- FF 81 at (62, 31) wraps on both axes. -/
theorem test_drw_wraps : (run 0xD012 ((withRegs (withMem 0x300 [0xFF, 0x81] start) [(0, 0x3E), (1, 0x1F)]).setI 0x300)).map
    (fun t => (rowOf t 31, rowOf t 0, t.reg 0xF)) = some ([0, 1, 2, 3, 4, 5, 62, 63], [5, 62], 0) := by decide

/-- The old VF gives both coordinates of DRW(0xF, 0xF, 1). -/
theorem test_drw_old_vF : (run 0xDFF1 ((withMem 0x300 [0x80] (start.setReg 0xF 0x02)).setI 0x300)).map
    (fun t => (rowOf t 2, t.reg 0xF)) = some ([2], 0) := by decide

/-! ## Timers, keys and the other events (table 2.7) -/

theorem test_ldRDT : (run 0xF307 (start.setDT 0x01)).map (fun t => (t.reg 3, t.dt)) = some (0x01, 0x01) := by decide
theorem test_ldRK : (run 0xF50A start).map (fun t => (t.wait, t.pc)) = some (some 5, 0x0202) := by decide
theorem test_ldDTR : (run 0xF015 (start.setReg 0 0x03)).map (·.dt) = some 0x03 := by decide
theorem test_ldSTR : (run 0xF018 (start.setReg 0 0x10)).map (fun t => (t.st, t.soundOutput, t.soundOn)) =
    some (0x10, 0x10, true) := by decide

/-- A waiting machine does not move, even with PC out of bounds. -/
theorem test_wait_step : after ((start.jump 0x2000).setWait (some 5)) = some ((start.jump 0x2000).setWait (some 5)) ∧
    faultOf ((start.jump 0x2000).setWait (some 5)) = 0 := by decide

theorem test_tick : start.tick.dt = 0x00 ∧ (start.setDT 0x03).tick.dt = 0x02 ∧ (start.setST 0x10).tick.st = 0x10 := by
  decide
theorem test_key_down_resolves : ((start.setWait (some 5)).keyDown 7).reg 5 = 0x07 ∧
    ((start.setWait (some 5)).keyDown 7).wait = none ∧ ((start.setWait (some 5)).keyDown 7).keyAt 7 = true := by decide
theorem test_key_down_held : ((start.keyDown 7).setWait (some 5)).keyDown 7 = (start.keyDown 7).setWait (some 5) := by
  decide
theorem test_key_down_no_wait : start.keyDown 7 = { start with key := Vector.ofFn fun k => k.val = 7 } := by decide
theorem test_key_up : ((start.keyDown 7).setWait (some 5)).keyUp 7 = start.setWait (some 5) := by decide
theorem test_jump : State.reset.jump 0x0200 = { State.reset with pc := 0x0200 } := by decide

/-! ## Fetch faults (table 2.8) and boot (R257 to R260) -/

theorem test_fetch_last_word : (run 0x6001 (start.jump 0xFFE)).map (fun t => (t.reg 0, t.pc)) = some (0x01, 0x1000) := by
  decide
theorem test_fetch_out_of_bounds : faultOf (start.jump 0xFFF) = 2 ∧ after (start.jump 0xFFF) = some (start.jump 0xFFF) ∧
    faultOf (start.jump 0x1000) = 2 := by decide
theorem test_decode_failure : faultOf (at_ 0x5121 start) = 1 ∧ run 0x5121 start = some (at_ 0x5121 start) := by decide

/-- The table word a row's word decodes to, and the step that runs it as the first instruction after reset. -/
theorem test_table_word : decodeTableWord 16 0x8126 = some (.shr 1 2) ∧
    (run 0x6A2F State.reset).map (·.reg 0xA) = some 0x2F := by decide

/-- Glyph A of the default font is where the spec's S8 looks for it. -/
theorem test_font_glyph_A : Memory.readBytes (State.reset.loadFont Config.defaultFont).mem 0x032 5 =
    [0xF0, 0x90, 0xF0, 0x90, 0x90] := by decide

/-! ## Witnesses: for each obligation with hypotheses, states and operands that meet them, clause by clause -/

theorem witness_CodecRoundTrips : WellFormed (.sys 0xFFF) ∧ decode 0xFF65 = some (.ldRII 0xF) ∧
    decode 0x00EE = some .ret := by decide

/-- 0x5121 in the last two bytes of memory. -/
def illegalAtTop : State := at_ 0x5121 (start.jump 0xFFE)

theorem witness_IllegalWordsExactly : illegalAtTop.wait = none ∧ illegalAtTop.pc.toNat ≤ 0xFFE ∧
    decode illegalAtTop.fetchWord = none := by decide

theorem inv_reset : State.reset.Inv := ⟨by decide, by decide, by decide⟩

theorem witness_EveryStepKeepsInvariant_next :
    State.reset.Inv ∧ ∃ t, stateLeft (step State.reset) = some t := ⟨inv_reset, _, rfl⟩

theorem witness_EveryStepKeepsInvariant_fault :
    (start.jump 0x1000).Inv ∧ faultOf (start.jump 0x1000) = 2 ∧
    ∃ t, stateLeft (step (start.jump 0x1000)) = some t :=
  ⟨⟨by decide, by decide, by decide⟩, by decide, _, rfl⟩

/-- ADD(1, 2) at the last fetchable address. -/
def addAtTop : State := at_ 0x8124 (start.jump 0xFFE)

theorem witness_StepRunsDecodedInstruction :
    addAtTop.executes (.add 1 2) ∧ addAtTop.schedule = [] ∧
    { addAtTop with schedule := [.step, .tick] }.executes (.add 1 2) :=
  ⟨⟨by decide, by decide, by decide⟩, by decide, ⟨by decide, by decide, by decide⟩⟩

theorem witness_StepEventInOrder :
    (start.setWait (some 0)).wait ≠ none ∧
    ((start.jump 0xFFF).wait = none ∧ 0xFFE < (start.jump 0xFFF).pc.toNat) ∧
    (illegalAtTop.wait = none ∧ illegalAtTop.pc.toNat ≤ 0xFFE ∧
      (0x5121 : Word).toNat = 256 * (Memory.read illegalAtTop.mem illegalAtTop.pc.toNat).toNat +
        (Memory.read illegalAtTop.mem (illegalAtTop.pc.toNat + 1)).toNat ∧ decode 0x5121 = none) ∧
    (addAtTop.wait = none ∧ addAtTop.pc.toNat ≤ 0xFFE ∧
      (0x8124 : Word).toNat = 256 * (Memory.read addAtTop.mem addAtTop.pc.toNat).toNat +
        (Memory.read addAtTop.mem (addAtTop.pc.toNat + 1)).toNat ∧ decode 0x8124 = some (.add 1 2)) := by decide

theorem witness_ListedEventHappensNext :
    ∃ s : Event → State, ∀ e ∈ [Event.step, .tick, .keyDown 15, .keyUp 0, .jump 0xFFFF], (s e).schedule = e :: [] :=
  ⟨fun e => { start with schedule := [e] }, fun _ _ => rfl⟩

/-- JP_V0(0xFFF) with V0 = 0xFF, at the last fetchable address: it leaves the largest PC. -/
def jpV0AtTop : State := at_ 0xBFFF ((start.setReg 0 0xFF).jump 0xFFE)

theorem witness_StepLeavesPcBounded :
    jpV0AtTop.Inv ∧ jpV0AtTop.wait = none ∧ jpV0AtTop.pc.toNat ≤ 0xFFE ∧
    ∃ t, stateLeft (stepEvent jpV0AtTop) = some t ∧ t.pc = 0x10FE :=
  ⟨⟨by decide, by decide, by decide⟩, by decide, by decide, _, rfl, by decide⟩

/-- Sixteen entries on the stack. -/
def fullStack : State := { start with sp := 16 }

theorem witness_WhoRaisesWhat_call : ∃ f, exec (.call 0x200) fullStack = .fault f := ⟨_, rfl⟩
theorem witness_WhoRaisesWhat_ret : ∃ f, exec .ret start = .fault f := ⟨_, rfl⟩
theorem witness_WhoRaisesWhat_keys : (∃ f, exec (.skp 3) (start.setReg 3 0x10) = .fault f) ∧
    ∃ f, exec (.sknp 3) (start.setReg 3 0xFF) = .fault f := ⟨⟨_, rfl⟩, _, rfl⟩
theorem witness_WhoRaisesWhat_memory : (∃ f, exec (.ldBR 0) (start.setI 0xFFE) = .fault f) ∧
    (∃ f, exec (.ldIIR 0xF) (start.setI 0xFF1) = .fault f) ∧ (∃ f, exec (.ldRII 0) (start.setI 0x1000) = .fault f) ∧
    ∃ f, exec (.drw 0 0 1) (start.setI 0x1000) = .fault f := ⟨⟨_, rfl⟩, ⟨_, rfl⟩, ⟨_, rfl⟩, _, rfl⟩

theorem witness_FaultLeavesState_fetch : ∃ f, stepEvent (start.jump 0xFFF) = .fault f := ⟨_, rfl⟩
theorem witness_FaultLeavesState_decode : ∃ f, stepEvent illegalAtTop = .fault f := ⟨_, rfl⟩
theorem witness_FaultLeavesState_execute : ∃ f, stepEvent (at_ 0x00EE start) = .fault f := ⟨_, rfl⟩

theorem witness_FetchFaultRecurs : ((start.jump 0xFFF).wait = none ∧ 0xFFE < (start.jump 0xFFF).pc.toNat) ∧
    illegalAtTop.wait = none ∧ illegalAtTop.pc.toNat ≤ 0xFFE ∧ decode illegalAtTop.fetchWord = none := by decide

/-- The recommended end-of-run predicate meets the premise on end-of-run predicates. -/
theorem ended_at_0xFFF : ∀ u faults, State.ended u faults → u.pc = 0xFFF ∧ u.wait = none :=
  fun _ _ h => ⟨h.1, h.2.1⟩

/-- JP(0xFFF) ends a run (R69, R264), and nothing that comes later is a `jump`. -/
theorem witness_FetchFaultRecurs_ended : (∃ t, RunEnds State.ended (at_ 0x1FFF start) [.step] t) ∧
    ∀ a, Event.jump a ∉ [Event.step, .tick, .keyDown 3, .step, .keyUp 3] :=
  ⟨⟨(at_ 0x1FFF start).jump 0xFFF, [], by decide, by decide, by decide, rfl⟩, by simp⟩

/-- RET with SP = 0 at 0xFFD leaves PC = 0xFFF and no wait, but a step has returned a fault: no end of a run (R264). -/
theorem test_fault_is_no_end_of_run (t : State) :
    ¬ RunEnds State.ended (at_ 0x00EE (start.jump 0xFFD)) [.step] t := by
  rintro ⟨_, h, -, -, rfl⟩
  have one : (deliverAll [.step] (at_ 0x00EE (start.jump 0xFFD))).map (fun r => r.2.length) = some 1 := by decide
  rw [h] at one
  cases one

theorem test_fault_at_0xFFD_leaves_pc_0xFFF : (run 0x00EE (start.jump 0xFFD)).map (fun t => (t.pc, t.wait)) =
    some (0xFFF, none) := by decide

theorem witness_RefusalOnlyOutsideInvariant : State.reset.Inv ∧ 17 ≤ { start with sp := 17 }.sp.toNat :=
  ⟨inv_reset, by decide⟩

theorem witness_ZeroedMemoryRunsAsNoOps : State.reset.wait = none ∧ State.reset.pc.toNat + 2 * 2048 ≤ 0x1000 ∧
    ∀ a, State.reset.pc.toNat ≤ a → a < State.reset.pc.toNat + 2 * 2048 → Memory.read State.reset.mem a = 0x00 :=
  ⟨rfl, by decide, fun _ _ _ => rfl⟩

theorem witness_SysIsNoOp : (0xFFF : Addr12) ≠ 0x0E0 ∧ (0xFFF : Addr12) ≠ 0x0EE ∧
    (at_ 0x0FFF (start.jump 0xFFE)).executes (.sys 0xFFF) := ⟨by decide, by decide, by decide, by decide, by decide⟩

theorem witness_RetPopsReturnAddress :
    (1 ≤ { start with sp := 1 }.sp.toNat ∧ { start with sp := 1 }.sp.toNat ≤ 16) ∧
    (1 ≤ fullStack.sp.toNat ∧ fullStack.sp.toNat ≤ 16) ∧ start.sp = 0 := by decide
theorem witness_RetPopsReturnAddress_fault : ∃ f, exec .ret start = .fault f := ⟨_, rfl⟩

theorem witness_CallPushesReturnAddress :
    { start with sp := 15 }.sp.toNat < 16 ∧ 16 ≤ fullStack.sp.toNat := by decide

theorem witness_ReturnResumesAfterCall : ∃ t u : State, exec (.call 0x300) { start with sp := 15 } = .next t ∧
    u.sp = t.sp ∧ u.stack = t.stack ∧ u.pc ≠ t.pc :=
  ⟨_, { start with sp := 16, stack := (Vector.replicate 16 0).set 15 0x200 }, rfl, by decide, by decide, by decide⟩

theorem witness_SkipsCompareRegisters : 0 < 15 ∧ 15 < 16 := by decide

theorem witness_SkipsTestKey : (15 : Key).val = ((start.setReg 3 0x0F).reg 3).toNat ∧
    16 ≤ ((start.setReg 3 0x10).reg 3).toNat := by decide

theorem witness_FlagWritersLeaveVfABit : (∃ t, exec (.add 1 2) start = .next t) ∧
    (∃ t, exec (.addRB 1 2) start = .next t) ∧ (∃ t, exec (.sub 1 2) start = .next t) ∧
    (∃ t, exec (.subn 1 2) start = .next t) ∧ (∃ t, exec (.shr 0xF 2) start = .next t) ∧
    (∃ t, exec (.shl 0xF 2) start = .next t) ∧ ∃ t, exec (.drw 0 0 15) start = .next t :=
  ⟨⟨_, rfl⟩, ⟨_, rfl⟩, ⟨_, rfl⟩, ⟨_, rfl⟩, ⟨_, rfl⟩, ⟨_, rfl⟩, _, rfl⟩

theorem witness_OnlyListedRegistersAreWritten : (∃ t, exec (.ldRII 0xE) start = .next t) ∧ ¬ writesReg (.ldRII 0xE) 0xF ∧
    (∃ t, exec (.or 1 2) start = .next t) ∧ ¬ writesReg (.or 1 2) 0xF :=
  ⟨⟨_, rfl⟩, by simp [writesReg], ⟨_, rfl⟩, by simp [writesReg]⟩

theorem witness_LdBRStoresDecimalDigits : ((start.setI 0xFFD).base + 2 ≤ 0xFFF ∧ Memory.wf (start.setI 0xFFD).mem) ∧
    0xFFF < (start.setI 0xFFE).base + 2 := by decide

theorem witness_LdIIRStoresRegisters : ((start.setI 0xFF0).base + 15 ≤ 0xFFF ∧ Memory.wf (start.setI 0xFF0).mem) ∧
    0xFFF < (start.setI 0xFF1).base + 15 := by decide

theorem witness_LdRIILoadsRegisters : (start.setI 0xFF0).base + 15 ≤ 0xFFF ∧ 0xFFF < (start.setI 0xFF1).base + 15 := by
  decide

theorem witness_StoredBlockLoadsBack : Memory.wf (start.setI 0xFF0).mem ∧
    ∃ t u : State, exec (.ldIIR 0xF) (start.setI 0xFF0) = .next t ∧ u.mem = t.mem ∧ u.i = t.i ∧ u.reg 0 ≠ t.reg 0 :=
  ⟨by decide, _, (start.setI 0xFF0).setReg 0 0xAA, rfl, by decide, by decide, by decide⟩

/-- I = 0x200 and PC = 0x200, with two registers to store. -/
def storesAtPc : State := (withRegs start [(0, 0x12), (1, 0x34)]).setI 0x200

theorem witness_FetchSeesStoredBytes : Memory.wf storesAtPc.mem ∧ (∃ t, exec (.ldIIR 1) storesAtPc = .next t) ∧
    (1 : Reg).val = (0 : Reg).val + 1 ∧ (1 : Reg) ≤ 1 ∧ storesAtPc.pc.toNat = storesAtPc.base + (0 : Reg).val :=
  ⟨by decide, ⟨_, rfl⟩, by decide, by decide, by decide⟩

theorem witness_OnlyThreeInstructionsWriteI :
    (∃ t, stateLeft (deliver .step (at_ 0xA300 start)) = some t ∧ t.i ≠ (at_ 0xA300 start).i) ∧
    (∃ t, stateLeft (deliver .step (at_ 0xF01E (start.setReg 0 1))) = some t ∧
      t.i ≠ (at_ 0xF01E (start.setReg 0 1)).i) ∧
    ∃ t, stateLeft (deliver .step (at_ 0xF029 (start.setReg 0 1))) = some t ∧
      t.i ≠ (at_ 0xF029 (start.setReg 0 1)).i :=
  ⟨⟨_, rfl, by decide⟩, ⟨_, rfl, by decide⟩, _, rfl, by decide⟩

theorem witness_OnlyTwoInstructionsWriteMemory :
    (∃ t, stateLeft (deliver .step (at_ 0xF033 (start.setReg 0 1))) = some t ∧
      t.mem ≠ (at_ 0xF033 (start.setReg 0 1)).mem) ∧
    ∃ t, stateLeft (deliver .step (at_ 0xF055 (start.setReg 0 1))) = some t ∧
      t.mem ≠ (at_ 0xF055 (start.setReg 0 1)).mem := ⟨⟨_, rfl, by decide⟩, _, rfl, by decide⟩

theorem witness_OnlyCallAndRetReachTheStack :
    (∃ t, stateLeft (deliver .step (at_ 0x2300 start)) = some t ∧ t.sp ≠ (at_ 0x2300 start).sp ∧
      t.stack ≠ (at_ 0x2300 start).stack) ∧
    ∃ t, stateLeft (deliver .step (at_ 0x00EE fullStack)) = some t ∧ t.sp ≠ (at_ 0x00EE fullStack).sp :=
  ⟨⟨_, rfl, by decide, by decide⟩, _, rfl, by decide⟩

/-- Fifteen rows of 0x80: a one-pixel-wide column. -/
def column : List Byte := List.replicate 15 0x80

theorem witness_BlitterXorsAndCollides : column.length ≤ 15 ∧
    spriteBit (fun row => column.getD row 0) column.length 63 31 63 31 ∧
    ¬ spriteBit (fun row => column.getD row 0) column.length 63 31 0 0 := by
  refine ⟨by decide, ⟨0, 0, by decide, by decide, by decide, by decide, by decide⟩, ?_⟩
  rintro ⟨row, col, hr, hc, hx, -, hb⟩
  have : col = 1 := by change (63 + col) % 64 = 0 at hx; omega
  subst this
  have hr : row < 15 := hr
  interval_cases row <;> simp [column] at hb

/-- One pixel set at (0, 0), and 0x80 at I: a draw at (0, 0) collides. -/
def collides : State := (withMem 0x300 [0x80] (withPixel start 0 0)).setI 0x300

theorem witness_DrwDrawsSprite_ranges :
    (0 : Fin 16).val = 0 ∧ (start.setI 0xFF1).base + (15 : Fin 16).val - 1 ≤ 0xFFF ∧
    1 ≤ (1 : Fin 16).val ∧ 0xFFF < (start.setI 0x1000).base + (1 : Fin 16).val - 1 := by decide

theorem witness_DrwDrawsSprite_collision : drwBit collides 1 2 1 0 0 ∧
    (∃ xx yy, collides.displayAt xx yy = true ∧ drwBit collides 1 2 1 xx yy) ∧ collides.base + 1 - 1 ≤ 0xFFF :=
  have h : drwBit collides 1 2 1 0 0 := ⟨0, 0, by decide, by decide, by decide, by decide, by decide⟩
  ⟨h, ⟨0, 0, by decide, h⟩, by decide⟩

theorem witness_DrwDrawsSprite_no_collision : ¬ drwBit start 1 2 0 0 0 ∧
    ¬ ∃ xx yy, start.displayAt xx yy = true ∧ drwBit start 1 2 0 xx yy :=
  ⟨fun ⟨_, _, h, _⟩ => by omega, fun ⟨_, _, _, _, _, h, _⟩ => by omega⟩

/-- A clear display, and 0x80 at I. -/
def drawsOne : State := (withMem 0x300 [0x80] start).setI 0x300

theorem witness_DrawingTwiceRestoresDisplay : ∃ t u r : State, exec (.drw 1 2 1) drawsOne = .next t ∧
    u.pix = t.pix ∧ u.mem = t.mem ∧ u.i = t.i ∧ u.reg 1 = drawsOne.reg 1 ∧
    u.reg 2 = drawsOne.reg 2 ∧ exec (.drw 1 2 1) u = .next r :=
  ⟨_, _, _, rfl, rfl, rfl, rfl, rfl, rfl, rfl⟩

theorem witness_DrawingTwiceRestoresDisplay_clear :
    ∀ xx yy, drawsOne.displayAt xx yy = false := by decide

theorem witness_OnlyClsAndDrwReachTheDisplay :
    (∃ t, stateLeft (deliver .step (at_ 0x00E0 (withPixel start 63 31))) = some t ∧
      t.pix ≠ (at_ 0x00E0 (withPixel start 63 31)).pix) ∧
    ∃ t, stateLeft (deliver .step (at_ 0xD121 (withMem 0 [0x80] start))) = some t ∧
      t.pix ≠ (at_ 0xD121 (withMem 0 [0x80] start)).pix := ⟨⟨_, rfl, by decide⟩, _, rfl, by decide⟩

theorem witness_TickCountsDelayTimerDown : 0 < (start.setDT 0x01).dt.toNat ∧ start.dt.toNat = 0 := by decide

theorem witness_KeyDownResolvesWait :
    ((start.setWait (some 0xF)).wait = some 0xF ∧ (start.setWait (some 0xF)).keyAt 0 = false) ∧
    start.wait = none ∧ (start.keyDown 15).keyAt 15 = true := by decide

theorem witness_TimersChangeOnlyAsStated :
    (∃ t, stateLeft (deliver .step (at_ 0xF018 (start.setReg 0 1))) = some t ∧
      t.st ≠ (at_ 0xF018 (start.setReg 0 1)).st) ∧
    (∃ t, stateLeft (deliver .step (at_ 0xF015 (start.setReg 0 1))) = some t ∧
      t.dt ≠ (at_ 0xF015 (start.setReg 0 1)).dt) ∧
    ∃ t, stateLeft (deliver .tick (start.setDT 1)) = some t ∧ t.dt ≠ (start.setDT 1).dt :=
  ⟨⟨_, rfl, by decide⟩, ⟨_, rfl, by decide⟩, _, rfl, by decide⟩

theorem witness_OnlyKeyEventsWriteKeypad :
    (∃ t, stateLeft (deliver (.keyDown 15) start) = some t ∧ t.keyAt 15 ≠ start.keyAt 15) ∧
    ∃ t, stateLeft (deliver (.keyUp 0) (start.keyDown 0)) = some t ∧ t.keyAt 0 ≠ (start.keyDown 0).keyAt 0 :=
  ⟨⟨_, rfl, by decide⟩, _, rfl, by decide⟩

theorem witness_WaitIsSetAndClearedOnlyAsStated :
    (∃ t, stateLeft (deliver .step (at_ 0xF50A start)) = some t ∧ t.wait ≠ (at_ 0xF50A start).wait) ∧
    ∃ t, stateLeft (deliver (.keyDown 7) (start.setWait (some 0xF))) = some t ∧
      t.wait ≠ (start.setWait (some 0xF)).wait := ⟨⟨_, rfl, by decide⟩, _, rfl, by decide⟩

theorem witness_WaitOutlastsEverythingButAPress : (start.setWait (some 5)).wait = some 5 ∧
    ∀ k, Event.keyDown k ∉ [Event.step, .tick, .keyUp 3, .jump 0x2000, .step] := by decide

theorem witness_KeyWaitProtocol :
    (∃ t, exec (.ldRK 5) (start.keyDown 7) = .next t) ∧ (start.keyDown 7).keyAt 7 = true ∧
    (∃ t, exec (.ldRK 5) start = .next t) ∧ start.keyAt 7 = false := ⟨⟨_, rfl⟩, by decide, ⟨_, rfl⟩, by decide⟩

theorem witness_TickCommutesWithOtherInstructions : (∀ x, Instr.ldSTR 0 ≠ .ldRDT x ∧ Instr.ldSTR 0 ≠ .ldDTR x) ∧
    ∃ t, exec (.ldSTR 0) (start.setDT 1) = .next t := ⟨by decide, _, rfl⟩

theorem witness_BootDeterminesLaunchState : 0xFFE + ([0x12, 0x00] : List Byte).length ≤ 4096 ∧
    0 + ([0x12, 0x00] : List Byte).length ≤ 4096 := by decide

theorem witness_LoadedProgramIsFetched : Memory.wf start.mem ∧ 0xFFC + 2 * [Instr.cls, .jp 0x200].length ≤ 4096 ∧
    (∀ i ∈ [Instr.cls, .jp 0x200], WellFormed i) ∧ [Instr.cls, .jp 0x200][1]? = some (.jp 0x200) := by decide

end Sys2Proof.Tests
end

section
/-! SUPPORT. What the delivery of each kind of event is (R15), and the obligation of spec/00_scope.md. -/

namespace Sys2Proof.Machine

/-- R127: the one event that runs an instruction. -/
@[simp] theorem deliver_step (s : State) : deliver .step s = stepEvent s := rfl

/-- R231: a tick cannot fail. -/
@[simp] theorem deliver_tick (s : State) : deliver .tick s = .next s.tick := rfl

/-- R237: a key press cannot fail. -/
@[simp] theorem deliver_keyDown (k : Key) (s : State) : deliver (.keyDown k) s = .next (s.keyDown k) := rfl

/-- R236: a key release cannot fail. -/
@[simp] theorem deliver_keyUp (k : Key) (s : State) : deliver (.keyUp k) s = .next (s.keyUp k) := rfl

/-- R240: a jump is not checked and cannot fail. -/
@[simp] theorem deliver_jump (a : Word) (s : State) : deliver (.jump a) s = .next (s.jump a) := rfl

/-- Settles O9: the move delivers the oldest listed event, and each kind of event has its own delivery. -/
theorem listedEventHappensNext : Obligations.ListedEventHappensNext := by
  intro s e rest listed
  rw [step_of_schedule_cons listed]
  cases e with
  | step => exact deliver_step _
  | tick => exact deliver_tick _
  | keyDown k => exact deliver_keyDown k _
  | keyUp k => exact deliver_keyUp k _
  | jump a => exact deliver_jump a _

end Sys2Proof.Machine
end

section
/-! SUPPORT. What one event can change, said once for every field of the state: the answers of the shared operations
read backwards, what each shape of `Leaves` keeps, and what the events other than `step` keep. -/

namespace Sys2Proof.Machine

/-! ## The shared operations, read backwards from their answer -/

/-- R144: a push that completes found room. -/
theorem pushThen_next {w : Word} {s t : State} {k : State → State} (h : pushThen w s k = .next t) :
    ∃ room : s.sp.toNat < 16, t = k { s with stack := s.stack.set s.sp.toNat w room, sp := s.sp + 1 } := by
  rcases pushThen_cases w s k with ⟨room, e⟩ | ⟨_, e⟩ <;> rw [e] at h <;> cases h
  exact ⟨room, rfl⟩

/-- R142: a pop that completes took the newest entry. -/
theorem popThen_next {s t : State} {k : Word → State → State} (h : popThen s k = .next t) :
    ∃ entry : s.sp.toNat - 1 < 16, t = k (s.stack[s.sp.toNat - 1]'entry) { s with sp := s.sp - 1 } := by
  rcases popThen_cases s k with ⟨entry, _, e⟩ | ⟨_, e⟩ | ⟨_, e⟩ <;> rw [e] at h <;> cases h
  exact ⟨entry, rfl⟩

/-- R155: a key test that completes went on with some key. -/
theorem keyThen_next {b : Byte} {s t : State} {k : Key → State} (h : keyThen b s k = .next t) : ∃ j, t = k j := by
  rcases keyThen_cases b s k with ⟨_, e⟩ | ⟨_, e⟩ <;> rw [e] at h <;> cases h
  exact ⟨_, rfl⟩

/-- R65: a bounded store that completes wrote its bytes. -/
theorem storeBytes_next {a : Nat} {xs : List Byte} {s t : State} (h : storeBytes a xs s = .next t) :
    t = { s with mem := Memory.writeBytes s.mem a xs } := by
  rcases storeBytes_cases a xs s with ⟨_, e⟩ | ⟨_, e⟩ <;> rw [e] at h <;> cases h
  rfl

/-- R65: a bounded load that completes went on with its bytes. -/
theorem withBytes_next {a n : Nat} {s t : State} {k : List Byte → Result} (h : withBytes a n s k = .next t) :
    k (Memory.readBytes s.mem a n) = .next t := by
  rcases withBytes_cases a n s k with ⟨_, e⟩ | ⟨_, e⟩ <;> rw [e] at h
  · exact h
  · cases h

/-- R192: a DRW that completes has written pixels, and VF with a flag. -/
theorem execDrw_next {x y : Reg} {n : Fin 16} {s t : State} (h : execDrw x y n s = .next t) :
    ∃ (d : Display) (hit : Bool), t = { s with pix := d }.setReg vF (flagByte hit) := by
  cases withBytes_next h
  exact ⟨_, _, rfl⟩

/-- R187: an LD_R_II that completes has loaded the block V0 to VX. -/
theorem execLdRII_next {x : Reg} {s t : State} (h : execLdRII x s = .next t) :
    t = s.setRegBlock 0 (Memory.readBytes s.mem s.base (x.val + 1)) := by
  cases withBytes_next h
  rfl

/-- R30: where the spec names no entry to pop, the model refuses (log 8). -/
theorem popThen_of_sp_gt {s : State} (k : Word → State → State) (h : 17 ≤ s.sp.toNat) :
    popThen s k = .refused .spOutOfRange := by
  rcases popThen_cases s k with ⟨entry, _, _⟩ | ⟨zero, _⟩ | ⟨_, e⟩
  · omega
  · simp [zero] at h
  · exact e

/-- R144: a push completes or faults. -/
theorem pushThen_ne_refused (w : Word) (s : State) (k : State → State) (r : Refusal) :
    pushThen w s k ≠ .refused r := by
  rcases pushThen_cases w s k with ⟨_, e⟩ | ⟨_, e⟩ <;> rw [e] <;> nofun

/-- R155: a key test completes or faults. -/
theorem keyThen_ne_refused (b : Byte) (s : State) (k : Key → State) (r : Refusal) : keyThen b s k ≠ .refused r := by
  rcases keyThen_cases b s k with ⟨_, e⟩ | ⟨_, e⟩ <;> rw [e] <;> nofun

/-- R65: a bounded store completes or faults. -/
theorem storeBytes_ne_refused (a : Nat) (xs : List Byte) (s : State) (r : Refusal) :
    storeBytes a xs s ≠ .refused r := by
  rcases storeBytes_cases a xs s with ⟨_, e⟩ | ⟨_, e⟩ <;> rw [e] <;> nofun

/-- R65: a bounded load is refused only by what it goes on with. -/
theorem withBytes_ne_refused (a n : Nat) (s : State) {k : List Byte → Result} {r : Refusal}
    (hk : ∀ bytes, k bytes ≠ .refused r) : withBytes a n s k ≠ .refused r := by
  rcases withBytes_cases a n s k with ⟨_, e⟩ | ⟨_, e⟩ <;> rw [e]
  · exact hk _
  · nofun

/-- R142: a pop is refused only where the spec names no entry (log 8). -/
theorem sp_gt_of_popThen_refused {s : State} {k : Word → State → State} {r : Refusal}
    (h : popThen s k = .refused r) : 17 ≤ s.sp.toNat := by
  rcases popThen_cases s k with ⟨_, _, e⟩ | ⟨_, e⟩ | ⟨deep, _⟩
  · cases e.symm.trans h
  · cases e.symm.trans h
  · exact deep

/-- Only RET with SP of 17 or more is refused: every other instruction completes or faults (R30; log 8). -/
theorem sp_gt_of_exec_refused {i : Instr} {s : State} {r : Refusal} (h : exec i s = .refused r) :
    17 ≤ s.sp.toNat := by
  cases i with
  | ret =>
    simp only [exec, execRet] at h
    exact sp_gt_of_popThen_refused h
  | call =>
    simp only [exec, execCall] at h
    exact absurd h (pushThen_ne_refused _ _ _ _)
  | skp | sknp =>
    simp only [exec, execSkp, execSknp] at h
    exact absurd h (keyThen_ne_refused _ _ _ _)
  | ldBR | ldIIR =>
    simp only [exec, execLdBR, execLdIIR] at h
    exact absurd h (storeBytes_ne_refused _ _ _ _)
  | ldRII | drw =>
    simp only [exec, execLdRII, execDrw] at h
    exact absurd h (withBytes_ne_refused _ _ _ nofun)
  | _ => cases h

/-! ## What each shape of `Leaves` keeps -/

section Leaves

variable {s t : State} {i : Instr}

/-- R29: I is written by LD_I, ADD_I_R and LD_F_R. -/
theorem Leaves.i_eq_or (h : Leaves s i t) :
    t.i = s.i ∨ (∃ nnn, i = .ldI nnn) ∨ ∃ x, i = .addIR x ∨ i = .ldFR x := by
  cases h with
  | ldI nnn => exact .inr (.inl ⟨nnn, rfl⟩)
  | addIR x w => exact .inr (.inr ⟨x, .inl rfl⟩)
  | ldFR x w => exact .inr (.inr ⟨x, .inr rfl⟩)
  | _ => exact .inl rfl

/-- R44: memory is written by LD_B_R and LD_II_R. -/
theorem Leaves.mem_eq_or (h : Leaves s i t) : t.mem = s.mem ∨ ∃ x, i = .ldBR x ∨ i = .ldIIR x := by
  cases h with
  | ldBR x xs fits => exact .inr ⟨x, .inl rfl⟩
  | ldIIR x xs fits => exact .inr ⟨x, .inr rfl⟩
  | _ => exact .inl rfl

/-- R30: SP is moved by CALL and RET. -/
theorem Leaves.sp_eq_or (h : Leaves s i t) : t.sp = s.sp ∨ (∃ nnn, i = .call nnn) ∨ i = .ret := by
  cases h with
  | push nnn room => exact .inr (.inl ⟨nnn, rfl⟩)
  | pop entry nonempty => exact .inr (.inr rfl)
  | _ => exact .inl rfl

/-- R38: stack entries are written by CALL; RET erases none. -/
theorem Leaves.stack_eq_or (h : Leaves s i t) : t.stack = s.stack ∨ ∃ nnn, i = .call nnn := by
  cases h with
  | push nnn room => exact .inr ⟨nnn, rfl⟩
  | _ => exact .inl rfl

/-- R40: the display is written by CLS and DRW. -/
theorem Leaves.pix_eq_or (h : Leaves s i t) : t.pix = s.pix ∨ i = .cls ∨ ∃ x y n, i = .drw x y n := by
  cases h with
  | cls => exact .inr (.inl rfl)
  | drw x y n v d => exact .inr (.inr ⟨x, y, n, rfl⟩)
  | _ => exact .inl rfl

/-- R32: ST is written by LD_ST_R, with VX. -/
theorem Leaves.st_eq_or (h : Leaves s i t) : t.st = s.st ∨ ∃ x, i = .ldSTR x ∧ t.st = s.reg x := by
  cases h with
  | ldSTR x => exact .inr ⟨x, rfl, rfl⟩
  | _ => exact .inl rfl

/-- R31: DT is written by LD_DT_R, with VX. -/
theorem Leaves.dt_eq_or (h : Leaves s i t) : t.dt = s.dt ∨ ∃ x, i = .ldDTR x ∧ t.dt = s.reg x := by
  cases h with
  | ldDTR x => exact .inr ⟨x, rfl, rfl⟩
  | _ => exact .inl rfl

/-- R33: the wait is set by LD_R_K, to its own register. -/
theorem Leaves.wait_eq_or (h : Leaves s i t) : t.wait = s.wait ∨ ∃ x, i = .ldRK x ∧ t.wait = some x := by
  cases h with
  | ldRK x => exact .inr ⟨x, rfl, rfl⟩
  | _ => exact .inl rfl

/-- R39: no instruction writes the keypad. -/
theorem Leaves.keyAt_eq (h : Leaves s i t) (k : Key) : t.keyAt k = s.keyAt k := by
  cases h <;> rfl

/-- R25: from an advanced PC of at most 0x1000 an instruction gets no further than 0x10FE, the reach of JP_V0. -/
theorem Leaves.pc_le (h : Leaves s i t) (inv : s.Inv) (pc : s.pc.toNat ≤ 0x1000) : t.pc.toNat ≤ 0x10FE := by
  have unmoved : s.pc.toNat ≤ 0x10FE := by omega
  cases h with
  | skip =>
    rw [State.setPC_pc, BitVec.toNat_add_of_lt] <;> simp <;> omega
  | jump _ p reach => exact reach
  | push nnn room =>
    have := nnn.isLt
    dsimp only
    rw [zextAddr_toNat]; omega
  | pop entry nonempty => exact (inv.stack_le ⟨_, entry⟩).trans (by decide)
  | _ => exact unmoved

end Leaves

/-! ## The invariant, shape by shape -/

/-- A push of an address of at most 0x1000 where there is room keeps the invariant (R25, R144). -/
theorem State.Inv.push {s : State} (inv : s.Inv) (room : s.sp.toNat < 16) {w : Word} (hw : w.toNat ≤ 0x1000) :
    State.Inv { s with stack := s.stack.set s.sp.toNat w room, sp := s.sp + 1 } where
  mem_wf := inv.mem_wf
  sp_le := by
    show (s.sp + 1).toNat ≤ 16
    rw [BitVec.toNat_add_of_lt] <;> simp <;> omega
  stack_le k := by
    show (s.stack.set s.sp.toNat w room)[k.val].toNat ≤ 0x1000
    rw [Vector.getElem_set]
    split
    · exact hw
    · exact inv.stack_le k

/-- A pop from a stack that is not empty keeps the invariant (R142). -/
theorem State.Inv.pop {s : State} (inv : s.Inv) (nonempty : s.sp ≠ 0) : State.Inv { s with sp := s.sp - 1 } where
  mem_wf := inv.mem_wf
  sp_le := by
    have : s.sp.toNat ≤ 16 := inv.sp_le
    show (s.sp - 1).toNat ≤ 16
    bv_omega
  stack_le := inv.stack_le

/-- A block write inside memory keeps the invariant (R65; log 4). -/
theorem State.Inv.writeBytes {s : State} (inv : s.Inv) {xs : List Byte}
    (fits : xs.length = 0 ∨ s.base + xs.length ≤ Config.memSize) :
    State.Inv { s with mem := Memory.writeBytes s.mem s.base xs } where
  mem_wf := by
    rcases fits with empty | fits
    · rw [List.eq_nil_of_length_eq_zero empty]; exact inv.mem_wf
    · exact Memory.wf_writeBytes inv.mem_wf fits
  sp_le := inv.sp_le
  stack_le := inv.stack_le

/-- The invariant speaks of memory, SP and the stack, so a change of other fields keeps it. -/
theorem State.Inv.congr {s t : State} (inv : s.Inv) (mem : t.mem = s.mem) (sp : t.sp = s.sp)
    (stack : t.stack = s.stack) : t.Inv where
  mem_wf := mem ▸ inv.mem_wf
  sp_le := sp ▸ inv.sp_le
  stack_le := stack ▸ inv.stack_le

/-- Every shape an instruction leaves keeps the invariant; CALL pushes the advanced PC, so it needs the fetch bound
(R25). -/
theorem Leaves.inv {s t : State} {i : Instr} (h : Leaves s i t) (inv : s.Inv) (pc : s.pc.toNat ≤ 0x1000) : t.Inv := by
  cases h with
  | push nnn room => exact (inv.push room pc).congr rfl rfl rfl
  | pop entry nonempty => exact (inv.pop nonempty).congr rfl rfl rfl
  | ldBR x xs fits => exact inv.writeBytes fits
  | ldIIR x xs fits => exact inv.writeBytes fits
  | _ => exact inv.congr rfl rfl rfl

/-! ## The events -/

/-- R25: a step event that executes has advanced PC to at most 0x1000. -/
theorem State.executes.advance_pc_le {s : State} {i : Instr} (h : s.executes i) : s.advance.pc.toNat ≤ 0x1000 := by
  obtain ⟨_, fetch, _⟩ := h
  rw [advance_pc_toNat fetch]
  simp only [Config.lastFetch] at fetch
  omega

/-- The advance keeps the invariant (R124). -/
theorem State.Inv.advance {s : State} (inv : s.Inv) : s.advance.Inv := inv.congr rfl rfl rfl

/-- R15: the events other than `step` cannot fail, and what they reach is V, PC, DT, the keypad and the wait. -/
theorem deliver_of_ne_step {e : Event} (he : e ≠ .step) (s : State) :
    ∃ v pc dt key wait, deliver e s = .next { s with v := v, pc := pc, dt := dt, key := key, wait := wait } := by
  cases e with
  | step => exact absurd rfl he
  | tick =>
    rw [deliver_tick, State.tick]
    split <;> exact ⟨_, _, _, _, _, rfl⟩
  | keyDown k =>
    rw [deliver_keyDown, State.keyDown]
    split
    · split <;> exact ⟨_, _, _, _, _, rfl⟩
    · exact ⟨_, _, _, _, _, rfl⟩
  | keyUp k => exact ⟨_, _, _, _, _, rfl⟩
  | jump a => exact ⟨_, _, _, _, _, rfl⟩

/-- A step event that changes something other than PC executed an instruction, which changed it (R120 to R127). -/
theorem executes_of_changes {α : Type} (f : State → α) (hf : ∀ s, f s.advance = f s) {s t : State}
    (h : stateLeft (stepEvent s) = some t) (changed : f t ≠ f s) :
    ∃ i, s.executes i ∧ Leaves s.advance i t ∧ f t ≠ f s.advance := by
  rcases stepEvent_leaves h with rfl | ⟨i, exe, leaves⟩
  · exact absurd rfl changed
  · exact ⟨i, exe, leaves, by rwa [hf]⟩

/-- Whatever the events other than `step` do not reach is changed by an instruction only (R15, R130). -/
theorem step_executes_of_changes {α : Type} (f : State → α)
    (hf : ∀ (s : State) v pc dt key wait, f { s with v := v, pc := pc, dt := dt, key := key, wait := wait } = f s)
    {e : Event} {s t : State} (h : stateLeft (deliver e s) = some t) (changed : f t ≠ f s) :
    e = .step ∧ ∃ i, s.executes i ∧ Leaves s.advance i t ∧ f t ≠ f s.advance := by
  by_cases he : e = .step
  · subst he
    exact ⟨rfl, executes_of_changes f (fun s => hf s s.v (s.pc + 2) s.dt s.key s.wait) h changed⟩
  · obtain ⟨v, pc, dt, key, wait, done⟩ := deliver_of_ne_step he s
    rw [done] at h
    cases h
    exact absurd (hf s v pc dt key wait) changed

/-- All a key press can do (R237): set its key, and resolve a wait when the key was up. -/
theorem State.keyDown_cases (s : State) (k : Key) :
    s.keyDown k = { s with key := s.key.set k.val true } ∨
    ∃ r, s.wait = some r ∧ s.keyAt k = false ∧
      s.keyDown k = (State.setReg { s with key := s.key.set k.val true } r (BitVec.ofNat 8 k.val)).setWait none := by
  unfold State.keyDown
  cases s.wait with
  | none => exact .inl rfl
  | some r =>
    cases s.keyAt k with
    | true => exact .inl rfl
    | false => exact .inr ⟨r, rfl, rfl, rfl⟩

/-- A key press touches its key and, where it resolves a wait, the wait and the register that awaits it (R237). -/
theorem Frame.keyDown (s : State) (k : Key) :
    Frame (fun p => p = .key k ∨ p = .wait ∨ ∃ r, p = .reg r) s (s.keyDown k) := by
  have key := Frame.setKey s k true
  rcases s.keyDown_cases k with e | ⟨r, _, _, e⟩ <;> rw [e]
  · exact key.mono fun p => .inl
  · exact (key.mono fun p => .inl).trans
      (((Frame.setReg _ r _).mono fun p named => .inr (.inr ⟨r, named⟩)).trans
        ((Frame.setWait _ none).mono fun p named => .inr (.inl named)))

end Sys2Proof.Machine
end

section
/-! SUPPORT. The obligations of spec/10_state.md: the invariant of the machine, and which event reaches which element
of the state. -/

namespace Sys2Proof.Machine

/-! ## The invariant -/

/-- The event list is the model's own and the invariant says nothing of it (log 1). -/
theorem State.Inv.nextEvent {s : State} (inv : s.Inv) : (nextEvent s).2.Inv := by
  unfold Machine.nextEvent
  split
  · exact inv
  · exact inv.congr rfl rfl rfl

/-- Every event keeps the invariant, whatever its result. -/
theorem State.Inv.deliver {e : Event} {s t : State} (inv : s.Inv) (h : stateLeft (deliver e s) = some t) : t.Inv := by
  by_cases he : e = .step
  · subst he
    rcases stepEvent_leaves h with rfl | ⟨i, exe, leaves⟩
    · exact inv
    · exact leaves.inv inv.advance exe.advance_pc_le
  · obtain ⟨v, pc, dt, key, wait, done⟩ := deliver_of_ne_step he s
    rw [done] at h
    cases h
    exact inv.congr rfl rfl rfl

/-- Settles O6: taking an event off the list keeps the invariant, and so does delivering it. -/
theorem everyStepKeepsInvariant : Obligations.EveryStepKeepsInvariant :=
  fun _ _ inv left => inv.nextEvent.deliver left

/-- Settles O10: what is executed starts at PC of at most 0x1000 and each of its shapes keeps below the reach of
JP_V0. -/
theorem stepLeavesPcBounded : Obligations.StepLeavesPcBounded := by
  intro s t inv _ fetch left
  rcases stepEvent_leaves left with rfl | ⟨i, exe, leaves⟩
  · omega
  · exact leaves.pc_le inv.advance exe.advance_pc_le

/-- An event is refused only with SP of 17 or more (R30; log 8). -/
theorem sp_gt_of_deliver_refused {e : Event} {s : State} {r : Refusal} (h : deliver e s = .refused r) :
    17 ≤ s.sp.toNat := by
  by_cases he : e = .step
  · subst he
    rw [deliver_step] at h
    rcases stepEvent_cases s with ⟨_, e⟩ | ⟨_, _, e⟩ | ⟨_, _, _, e⟩ | ⟨i, _, _, _, e⟩ <;> rw [e] at h
    · cases h
    · cases h
    · cases h
    · exact sp_gt_of_exec_refused (s := s.advance) h
  · obtain ⟨v, pc, dt, key, wait, done⟩ := deliver_of_ne_step he s
    cases done.symm.trans h

/-- Settles O14: a refusal needs SP of 17 or more, which the invariant excludes, and there RET is refused. -/
theorem refusalOnlyOutsideInvariant : Obligations.RefusalOnlyOutsideInvariant := by
  refine ⟨fun s r inv refused => ?_, fun s deep => popThen_of_sp_gt (fun t s' => s'.setPC t) deep⟩
  have deep := sp_gt_of_deliver_refused refused
  have : (nextEvent s).2.sp.toNat ≤ 16 := inv.nextEvent.sp_le
  omega

/-! ## The registers -/

/-- R27: a flag is held as one of two bytes. -/
theorem flagByte_eq_or (f : Bool) : flagByte f = 0x00 ∨ flagByte f = 0x01 := by
  cases f
  · exact .inl rfl
  · exact .inr rfl

/-- Settles O31: the last write of each of the seven is `flagByte` to VF. -/
theorem flagWritersLeaveVfABit : Obligations.FlagWritersLeaveVfABit := by
  intro i s t seven done
  suffices ∃ f, t.reg vF = flagByte f by
    obtain ⟨f, e⟩ := this
    rw [e]; exact flagByte_eq_or f
  obtain ⟨x, y, kk, n, rfl | rfl | rfl | rfl | rfl | rfl | rfl⟩ := seven
  iterate 6
    · cases done
      exact ⟨_, State.setResultFlag_vF s x _ _⟩
  · obtain ⟨d, hit, rfl⟩ := execDrw_next done
    exact ⟨hit, State.reg_setReg_self _ vF _⟩

/-- R150: a skip reaches no register. -/
theorem State.skipIf_reg (s : State) (c : Bool) (r : Reg) : (s.skipIf c).reg r = s.reg r := by
  rw [State.skipIf_eq, State.setPC_reg]

/-- Settles O32: by the kinds of instruction: one register written, a result and a flag, a block, or none. -/
theorem onlyListedRegistersAreWritten : Obligations.OnlyListedRegistersAreWritten := by
  intro i s t r done unlisted
  cases i with
  | ldRB x | ldRR x | or x | and x | xor x | rnd x | ldRDT x =>
    cases done
    exact State.reg_setReg_other s _ unlisted
  | addRB x | add x | sub x | shr x | subn x | shl x =>
    cases done
    exact State.setResultFlag_other s _ _ (fun e => unlisted (.inl e)) fun e => unlisted (.inr e)
  | drw x y n =>
    obtain ⟨d, hit, rfl⟩ := execDrw_next done
    exact State.reg_setReg_other _ _ unlisted
  | ldRII x =>
    obtain rfl := execLdRII_next done
    have above : ¬ r.val ≤ x.val := unlisted
    rw [State.setRegBlock_reg _ _ _ _ (by simp), if_neg (by simp [above])]
  | seRB | sneRB | seRR | sneRR =>
    cases done
    exact s.skipIf_reg _ r
  | skp | sknp =>
    simp only [exec, execSkp, execSknp] at done
    obtain ⟨j, rfl⟩ := keyThen_next done
    exact s.skipIf_reg _ r
  | ret =>
    simp only [exec, execRet] at done
    obtain ⟨_, rfl⟩ := popThen_next done
    rfl
  | call =>
    simp only [exec, execCall] at done
    obtain ⟨_, rfl⟩ := pushThen_next done
    rfl
  | ldBR | ldIIR =>
    obtain rfl := storeBytes_next done
    rfl
  | _ =>
    cases done
    rfl

/-! ## Which event reaches which element -/

/-- Settles O39: only an instruction can have changed I, and three shapes of `Leaves` do. -/
theorem onlyThreeInstructionsWriteI : Obligations.OnlyThreeInstructionsWriteI := by
  intro e s t left changed
  obtain ⟨rfl, i, exe, leaves, changed⟩ := step_executes_of_changes State.i (fun _ _ _ _ _ _ => rfl) left changed
  rcases leaves.i_eq_or with same | ⟨nnn, rfl⟩ | ⟨x, rfl | rfl⟩
  · exact absurd same changed
  · exact ⟨rfl, .inl ⟨nnn, exe⟩⟩
  · exact ⟨rfl, .inr ⟨x, .inl exe⟩⟩
  · exact ⟨rfl, .inr ⟨x, .inr exe⟩⟩

/-- Settles O40: only an instruction can have changed memory, and two shapes of `Leaves` do. -/
theorem onlyTwoInstructionsWriteMemory : Obligations.OnlyTwoInstructionsWriteMemory := by
  intro e s t left changed
  obtain ⟨rfl, i, exe, leaves, changed⟩ := step_executes_of_changes State.mem (fun _ _ _ _ _ _ => rfl) left changed
  rcases leaves.mem_eq_or with same | ⟨x, rfl | rfl⟩
  · exact absurd same changed
  · exact ⟨rfl, x, .inl exe⟩
  · exact ⟨rfl, x, .inr exe⟩

/-- Settles O41: the push shape of `Leaves` writes SP and an entry, the pop shape SP alone. -/
theorem onlyCallAndRetReachTheStack : Obligations.OnlyCallAndRetReachTheStack := by
  intro e s t left
  constructor
  · intro changed
    obtain ⟨rfl, i, exe, leaves, changed⟩ := step_executes_of_changes State.sp (fun _ _ _ _ _ _ => rfl) left changed
    rcases leaves.sp_eq_or with same | ⟨nnn, rfl⟩ | rfl
    · exact absurd same changed
    · exact ⟨rfl, .inl ⟨nnn, exe⟩⟩
    · exact ⟨rfl, .inr exe⟩
  · intro changed
    obtain ⟨rfl, i, exe, leaves, changed⟩ :=
      step_executes_of_changes State.stack (fun _ _ _ _ _ _ => rfl) left changed
    obtain ⟨nnn, rfl⟩ := leaves.stack_eq_or.resolve_left changed
    exact ⟨rfl, nnn, exe⟩

/-- Settles O46: only an instruction can have changed the display, and two shapes of `Leaves` do. -/
theorem onlyClsAndDrwReachTheDisplay : Obligations.OnlyClsAndDrwReachTheDisplay := by
  intro e s t left changed
  obtain ⟨rfl, i, exe, leaves, changed⟩ := step_executes_of_changes State.pix (fun _ _ _ _ _ _ => rfl) left changed
  rcases leaves.pix_eq_or with same | rfl | ⟨x, y, n, rfl⟩
  · exact absurd same changed
  · exact ⟨rfl, .inl exe⟩
  · exact ⟨rfl, .inr ⟨x, y, n, exe⟩⟩

/-- Settles O53: only an instruction can have changed ST; DT goes event by event, the tick being the one event
other than `step` that reaches it. -/
theorem timersChangeOnlyAsStated : Obligations.TimersChangeOnlyAsStated := by
  intro e s t left
  constructor
  · intro changed
    obtain ⟨rfl, i, exe, leaves, changed⟩ := step_executes_of_changes State.st (fun _ _ _ _ _ _ => rfl) left changed
    obtain ⟨x, rfl, value⟩ := leaves.st_eq_or.resolve_left changed
    exact ⟨rfl, x, exe, value⟩
  · intro changed
    cases e with
    | step =>
      obtain ⟨i, exe, leaves, changed⟩ := executes_of_changes State.dt State.advance_dt left changed
      obtain ⟨x, rfl, value⟩ := leaves.dt_eq_or.resolve_left changed
      exact .inr ⟨rfl, x, exe, value⟩
    | tick => exact .inl rfl
    | keyDown k => cases left; exact absurd (Frame.keyDown s k .dt (by simp)) changed
    | keyUp k => cases left; exact absurd (Frame.setKey s k false .dt nofun) changed
    | jump a => cases left; exact absurd (Frame.setPC s a .dt nofun) changed

/-- Settles O54: event by event; a key event writes the one key it names. -/
theorem onlyKeyEventsWriteKeypad : Obligations.OnlyKeyEventsWriteKeypad := by
  intro e s t k left changed
  cases e with
  | step =>
    obtain ⟨i, _, leaves, changed⟩ := executes_of_changes (State.keyAt · k) (fun s => s.advance_keyAt k) left changed
    exact absurd (leaves.keyAt_eq k) changed
  | tick => cases left; exact absurd (Frame.tick s (.key k) nofun) changed
  | keyDown j =>
    cases left
    by_cases named : k = j
    · exact .inl (by rw [named])
    · exact absurd (Frame.keyDown s j (.key k) (by simpa using named)) changed
  | keyUp j =>
    cases left
    by_cases named : k = j
    · exact .inr (by rw [named])
    · exact absurd (Frame.setKey s j false (.key k) (by simpa using named)) changed
  | jump a => cases left; exact absurd (Frame.setPC s a (.key k) nofun) changed

/-- Settles O55: event by event; LD_R_K sets the wait, and a press edge clears it and stores the key number. -/
theorem waitIsSetAndClearedOnlyAsStated : Obligations.WaitIsSetAndClearedOnlyAsStated := by
  intro e s t left changed
  cases e with
  | step =>
    obtain ⟨i, exe, leaves, changed⟩ := executes_of_changes State.wait State.advance_wait left changed
    obtain ⟨x, rfl, names⟩ := leaves.wait_eq_or.resolve_left changed
    exact .inl ⟨rfl, x, exe, names⟩
  | tick => cases left; exact absurd (Frame.tick s .wait nofun) changed
  | keyDown k =>
    cases left
    rcases s.keyDown_cases k with held | ⟨r, waits, up, resolved⟩
    · rw [held] at changed
      exact absurd rfl changed
    · have := k.isLt
      rw [resolved]
      refine .inr ⟨rfl, k, r, rfl, up, waits, ?_⟩
      rw [State.setWait_reg, State.reg_setReg_self, BitVec.toNat_ofNat]
      omega
  | keyUp k => cases left; exact absurd (Frame.setKey s k false .wait nofun) changed
  | jump a => cases left; exact absurd (Frame.setPC s a .wait nofun) changed

/-! ## Reset -/

/-- Settles O4: the vectors of `State.reset` are replicated zeros and its memory lists nothing. -/
theorem resetState : Obligations.ResetState := by
  refine ⟨fun r => ?_, rfl, rfl, rfl, fun k => ?_, rfl, rfl, fun k => ?_, rfl, fun _ => rfl, fun xx yy => ?_⟩
  · exact Vector.getElem_replicate r.isLt
  · exact Vector.getElem_replicate k.isLt
  · exact Vector.getElem_replicate k.isLt
  · exact Display.pixel_clear xx yy

/-- Settles O5: nothing is listed, nothing is stacked and every entry is zero. -/
theorem resetHasInvariant : Obligations.ResetHasInvariant where
  mem_wf := ⟨.nil, fun _ listed => absurd listed List.not_mem_nil⟩
  sp_le := Nat.zero_le 16
  stack_le k := by
    show (Vector.replicate 16 (0 : Word))[k.val].toNat ≤ 0x1000
    rw [Vector.getElem_replicate]
    decide

end Sys2Proof.Machine
end

section
/-! SUPPORT. The obligation of spec/20_memory.md: what the block store of LD_II_R leaves in memory, and the fetch that
comes after it. -/

namespace Sys2Proof.Machine

/-- R21: the block V0 to VX has x + 1 bytes. -/
@[simp] theorem State.length_regBlock (s : State) (x : Reg) : (s.regBlock x).length = x.val + 1 := by
  simp [State.regBlock]

/-- R21: the k-th byte of the block V0 to VX is VK. -/
theorem State.getD_regBlock (s : State) {x k : Reg} (inside : k ≤ x) : (s.regBlock x).getD k.val 0 = s.reg k := by
  have below : k.val < x.val + 1 := Nat.lt_succ_of_le inside
  simp [State.regBlock, State.reg, List.getD, below]

/-- R185: an LD_II_R that completes has written the block V0 to VX at I, and nothing else. -/
theorem exec_ldIIR_next {x : Reg} {s t : State} (h : exec (.ldIIR x) s = .next t) :
    t = { s with mem := Memory.writeBytes s.mem s.base (s.regBlock x) } := storeBytes_next h

/-- R185: each stored register reads back at its own place from I on. -/
theorem Memory.read_writeBytes_regBlock {s : State} (wf : Memory.wf s.mem) {x k : Reg} (inside : k ≤ x) :
    Memory.read (Memory.writeBytes s.mem s.base (s.regBlock x)) (s.base + k.val) = s.reg k := by
  have below : k.val < x.val + 1 := Nat.lt_succ_of_le inside
  rw [Memory.read_writeBytes _ wf.1, State.length_regBlock, if_pos (by omega), Nat.add_sub_cancel_left,
    State.getD_regBlock s inside]

/-- R122: the fetched word as a number: the byte at PC and, less significant, the byte after it. -/
theorem State.fetchWord_toNat (s : State) :
    s.fetchWord.toNat = 256 * (Memory.read s.mem s.pc.toNat).toNat + (Memory.read s.mem (s.pc.toNat + 1)).toNat :=
  wordOf_toNat _ _

/-- Settles O38: PC and PC + 1 are the places of Vk and V(k+1) in the block just written, so the two bytes of the fetch
read these registers back. -/
theorem fetchSeesStoredBytes : Obligations.FetchSeesStoredBytes := by
  intro x k j s t wf done next inside at_k
  have at_j : s.pc.toNat + 1 = s.base + j.val := by omega
  have inside_k : k ≤ x := (Fin.le_def.2 (by omega) : k ≤ j).trans inside
  rw [exec_ldIIR_next done, State.fetchWord_toNat, at_j, at_k, Memory.read_writeBytes_regBlock wf inside_k,
    Memory.read_writeBytes_regBlock wf inside]

end Sys2Proof.Machine
end

section
/-! SUPPORT. The codec laws of spec/30_encoding.md: what each decoding group selects and what it leaves out, and the two
round trips put together from the groups; the three obligations about the codec alone. -/

namespace Sys2Proof

/-! ## A word is put together from its own fields (R91, R92) -/

variable {w : Word} {a : BitVec 4}

theorem packNNN_of_fields {nnn : Addr12} (ha : (fieldA w).toNat = a.toNat)
    (hnnn : (fieldNNN w).toNat = nnn.toNat) : packNNN a nnn = w := by
  apply BitVec.eq_of_toNat_eq
  rw [toNat_packNNN, ← ha, ← hnnn, fieldA_toNat, fieldNNN_toNat]
  omega

theorem packXKK_of_fields {kk : Byte} (ha : (fieldA w).toNat = a.toNat) (hkk : (fieldKK w).toNat = kk.toNat) :
    packXKK a (fieldX w) kk = w := by
  apply BitVec.eq_of_toNat_eq
  rw [toNat_packXKK, ← ha, ← hkk, fieldA_toNat, fieldX_val, fieldKK_toNat]
  omega

theorem packXYZ_of_fields {z : Fin 16} (ha : (fieldA w).toNat = a.toNat) (hz : (fieldZ w).val = z.val) :
    packXYZ a (fieldX w) (fieldY w) z = w := by
  apply BitVec.eq_of_toNat_eq
  rw [toNat_packXYZ, ← ha, ← hz, fieldA_toNat, fieldX_val, fieldY_val, fieldZ_val]
  omega

/-! ## The instruction of a word, group by group -/

/-- R98: a SYS address field is any but those of CLS and RET. -/
theorem sysFieldOk_iff (nnn : Addr12) : sysFieldOk nnn = true ↔ nnn.toNat ≠ 0x0E0 ∧ nnn.toNat ≠ 0x0EE := by
  simp [sysFieldOk, ← BitVec.toNat_inj]

/-- R98: a word of group 0 with such an address field is SYS. -/
theorem decodeGroup0_of_sysFieldOk (ok : sysFieldOk (fieldNNN w) = true) :
    decodeGroup0 w = .sys (fieldNNN w) := by
  obtain ⟨notCls, notRet⟩ := (sysFieldOk_iff _).1 ok
  unfold decodeGroup0
  split
  · contradiction
  · contradiction
  · rfl

/-- The second law of R109 for one word: the instruction encodes to the word and is representable (R108). -/
def Represents (i : Instr) (w : Word) : Prop := encode i = w ∧ WellFormed i

/-- R98: every word of group 0 is represented. -/
theorem represents_decodeGroup0 (ha : (fieldA w).toNat = 0) : Represents (decodeGroup0 w) w := by
  unfold decodeGroup0
  split
  · next cls => exact ⟨packNNN_of_fields (a := 0) (nnn := 0x0E0) ha cls, rfl⟩
  · next ret => exact ⟨packNNN_of_fields (a := 0) (nnn := 0x0EE) ha ret, rfl⟩
  · next notCls notRet => exact ⟨packNNN_of_fields ha rfl, (sysFieldOk_iff _).2 ⟨notCls, notRet⟩⟩

/-- R99, R101: groups 5 and 9 select their member exactly where `z` is 0. -/
theorem decodeZ0_eq_some_iff {f : Reg → Reg → Instr} {i : Instr} :
    decodeZ0 f w = some i ↔ (fieldZ w).val = 0 ∧ f (fieldX w) (fieldY w) = i := by
  unfold decodeZ0
  split
  · next zero => simp [zero]
  · next nonzero => exact iff_of_false nofun fun h => nonzero h.1

/-- R100: what group 8 selects represents the word. -/
theorem represents_of_decodeGroup8 (ha : (fieldA w).toNat = 8) {i : Instr} (h : decodeGroup8 w = some i) :
    Represents i w := by
  unfold decodeGroup8 at h
  split at h
  case h_10 => cases h
  all_goals
    next hz =>
    cases h
    exact ⟨packXYZ_of_fields ha hz, rfl⟩

/-- R102: what group E selects represents the word. -/
theorem represents_of_decodeGroupE (ha : (fieldA w).toNat = 0xE) {i : Instr} (h : decodeGroupE w = some i) :
    Represents i w := by
  unfold decodeGroupE at h
  split at h
  case h_3 => cases h
  all_goals
    next hkk =>
    cases h
    exact ⟨packXKK_of_fields ha hkk, rfl⟩

/-- R103: what group F selects represents the word. -/
theorem represents_of_decodeGroupF (ha : (fieldA w).toNat = 0xF) {i : Instr} (h : decodeGroupF w = some i) :
    Represents i w := by
  unfold decodeGroupF at h
  split at h
  case h_10 => cases h
  all_goals
    next hkk =>
    cases h
    exact ⟨packXKK_of_fields ha hkk, rfl⟩

/-! ## The two round trips (R109) -/

/-- R109 (1): by the formats of R92; for SYS the address field is not that of CLS or RET. -/
theorem decode_encode {i : Instr} (wf : WellFormed i) : decode (encode i) = some i := by
  cases i with
  | sys nnn => simp [encode, decode, decodeGroup0_of_sysFieldOk, show sysFieldOk nnn = true from wf]
  | cls | ret => rfl
  | jp | call | ldI | jpV0 => simp [encode, decode]
  | seRB | sneRB | ldRB | addRB | rnd => simp [encode, decode]
  | seRR | sneRR => simp [encode, decode, decodeZ0]
  | ldRR | or | and | xor | add | sub | shr | subn | shl => simp [encode, decode, decodeGroup8]
  | drw => simp [encode, decode]
  | skp | sknp => simp [encode, decode, decodeGroupE]
  | ldRDT | ldRK | ldDTR | ldSTR | addIR | ldFR | ldBR | ldIIR | ldRII => simp [encode, decode, decodeGroupF]

/-- R109 (2): by the primary opcode, every other group having one member and all its words. -/
theorem represents_of_decode {i : Instr} (h : decode w = some i) : Represents i w := by
  unfold decode at h
  split at h
  case h_1 ha => cases h; exact represents_decodeGroup0 ha
  case h_2 ha | h_3 ha | h_11 ha | h_12 ha => cases h; exact ⟨packNNN_of_fields ha rfl, rfl⟩
  case h_4 ha | h_5 ha | h_7 ha | h_8 ha | h_13 ha => cases h; exact ⟨packXKK_of_fields ha rfl, rfl⟩
  case h_6 ha | h_10 ha =>
    obtain ⟨hz, rfl⟩ := decodeZ0_eq_some_iff.1 h
    exact ⟨packXYZ_of_fields ha hz, rfl⟩
  case h_9 ha => exact represents_of_decodeGroup8 ha h
  case h_14 ha => cases h; exact ⟨packXYZ_of_fields ha rfl, rfl⟩
  case h_15 ha => exact represents_of_decodeGroupE ha h
  case h_16 =>
    have ha : (fieldA w).toNat = 0xF := by have := (fieldA w).isLt; grind
    exact represents_of_decodeGroupF ha h

/-- Settles O2: the two round trips, and two words of one instruction are both its encoding. -/
theorem codecRoundTrips : Obligations.CodecRoundTrips := by
  refine ⟨fun i wf => decode_encode wf, fun w i h => represents_of_decode h, fun w w' i h h' => ?_⟩
  obtain ⟨e, _⟩ := represents_of_decode h
  obtain ⟨e', _⟩ := represents_of_decode h'
  exact e.symm.trans e'

/-- Settles O1: fourteen closed words, each decoded. -/
theorem decodesSpecWords : Obligations.DecodesSpecWords := by
  unfold Obligations.DecodesSpecWords
  decide

/-! ## The illegal words (R104), group by group -/

variable (w)

/-- R99, R101: groups 5 and 9 leave out the words with `z` not 0. -/
theorem decodeZ0_eq_none_iff (f : Reg → Reg → Instr) : decodeZ0 f w = none ↔ w.toNat % 16 ≠ 0 := by
  rw [← fieldZ_val]
  unfold decodeZ0
  split <;> simp_all

/-- R100: group 8 leaves out `z` of 8 and more, but for 0xE. -/
theorem decodeGroup8_eq_none_iff : decodeGroup8 w = none ↔ 8 ≤ w.toNat % 16 ∧ w.toNat % 16 ≠ 0xE := by
  have := (fieldZ w).isLt
  rw [← fieldZ_val]
  unfold decodeGroup8
  split
  case h_10 => grind
  all_goals
    next hz => simp [hz]

/-- R102: group E leaves out every low byte but two. -/
theorem decodeGroupE_eq_none_iff : decodeGroupE w = none ↔ w.toNat % 256 ∉ [0x9E, 0xA1] := by
  rw [← fieldKK_toNat]
  unfold decodeGroupE
  split <;> simp_all

/-- R103: group F leaves out every low byte but nine. -/
theorem decodeGroupF_eq_none_iff :
    decodeGroupF w = none ↔ w.toNat % 256 ∉ [0x07, 0x0A, 0x15, 0x18, 0x1E, 0x29, 0x33, 0x55, 0x65] := by
  rw [← fieldKK_toNat]
  unfold decodeGroupF
  split <;> simp_all

/-- R104: by the primary opcode; the other groups leave no word out. -/
theorem decode_eq_none_iff : decode w = none ↔
    ((w.toNat / 4096 = 5 ∨ w.toNat / 4096 = 9) ∧ w.toNat % 16 ≠ 0) ∨
    (w.toNat / 4096 = 8 ∧ (8 ≤ w.toNat % 16 ∧ w.toNat % 16 ≠ 0xE)) ∨
    (w.toNat / 4096 = 0xE ∧ w.toNat % 256 ∉ [0x9E, 0xA1]) ∨
    (w.toNat / 4096 = 0xF ∧ w.toNat % 256 ∉ [0x07, 0x0A, 0x15, 0x18, 0x1E, 0x29, 0x33, 0x55, 0x65]) := by
  rw [← fieldA_toNat]
  unfold decode
  split
  case h_6 ha | h_10 ha => simp [ha, decodeZ0_eq_none_iff]
  case h_9 ha => simp [ha, decodeGroup8_eq_none_iff]
  case h_15 ha => simp [ha, decodeGroupE_eq_none_iff]
  case h_16 =>
    have ha : (fieldA w).toNat = 0xF := by have := (fieldA w).isLt; grind
    simp [ha, decodeGroupF_eq_none_iff]
  all_goals
    next ha => simp [ha]

end Sys2Proof
end

section
/-! SUPPORT. The step at an illegal word (R104, R123) and at a zero word (R105, R265): the two obligations of
spec/30_encoding.md that speak of the step event. -/

namespace Sys2Proof.Machine

/-- R123: a step that fetches an illegal word fails, naming it, in the state it met. -/
theorem stepEvent_of_illegal {s : State} (wait : s.wait = none) (fetch : s.pc.toNat ≤ Config.lastFetch)
    (illegal : decode s.fetchWord = none) : stepEvent s = .fault (.decodeFailure s.fetchWord s) := by
  rcases stepEvent_cases s with ⟨h, _⟩ | ⟨_, h, _⟩ | ⟨_, _, _, e⟩ | ⟨i, _, _, h, _⟩
  · exact absurd wait h
  · exact absurd fetch h
  · exact e
  · cases illegal.symm.trans h

/-- Settles O3: the illegal words by group, and the decode stage of the step. -/
theorem illegalWordsExactly : Obligations.IllegalWordsExactly :=
  ⟨decode_eq_none_iff, fun _ wait fetch illegal => stepEvent_of_illegal wait fetch illegal⟩

/-- R105: two zero bytes are the word of SYS(0x000). -/
theorem executes_sys_of_zero_bytes {s : State} (wait : s.wait = none) (fetch : s.pc.toNat ≤ Config.lastFetch)
    (hi : Memory.read s.mem s.pc.toNat = 0x00) (lo : Memory.read s.mem (s.pc.toNat + 1) = 0x00) :
    s.executes (.sys 0x000) := by
  refine ⟨wait, fetch, ?_⟩
  rw [State.fetchWord, Memory.readWord, hi, lo]
  rfl

/-- R141: a step that executes SYS advances and does nothing else. -/
theorem stepEvent_of_executes_sys {s : State} {nnn : Addr12} (h : s.executes (.sys nnn)) :
    stepEvent s = .next s.advance :=
  stepEvent_of_executes h

/-- Settles O15: by induction on the number of steps; one no-op, then the rest from the advanced state. -/
theorem zeroedMemoryRunsAsNoOps : Obligations.ZeroedMemoryRunsAsNoOps := by
  intro n
  induction n with
  | zero => exact fun s _ _ _ => ⟨s, rfl, rfl, Frame.refl _ s⟩
  | succ n ih =>
    intro s wait fits zeros
    have fetch : s.pc.toNat ≤ Config.lastFetch := by simp only [Config.lastFetch]; omega
    have sys : s.executes (.sys 0x000) :=
      executes_sys_of_zero_bytes wait fetch (zeros _ (by omega) (by omega)) (zeros _ (by omega) (by omega))
    have pc : s.advance.pc.toNat = s.pc.toNat + 2 := advance_pc_toNat fetch
    obtain ⟨t, run, moved, frame⟩ :=
      ih s.advance wait (by omega) fun a above below => zeros a (by omega) (by omega)
    refine ⟨t, ?_, by omega, (Frame.advance s).trans frame⟩
    rw [List.replicate_succ, deliverAll, deliver_step, stepEvent_of_executes_sys sys]
    exact run

end Sys2Proof.Machine
end

section
/-! SUPPORT. The two obligations of spec/40_execution_cycle.md: the `step` event test by test, and the move that runs the
decoded instruction. -/

namespace Sys2Proof.Machine

/-! ## The tests of the step event, each where the ones before it pass -/

/-- R120: while a wait is set the step event does nothing. -/
theorem stepEvent_of_waiting {s : State} (waiting : s.wait ≠ none) : stepEvent s = .next s := by
  rcases stepEvent_cases s with ⟨_, e⟩ | ⟨h, _⟩ | ⟨h, _⟩ | ⟨_, h, _⟩
  · exact e
  all_goals exact absurd h waiting

/-- R121: with no wait set, a step event fails at a PC no instruction can be fetched from, in the state it met. -/
theorem stepEvent_of_outOfBounds {s : State} (wait : s.wait = none) (outside : Config.lastFetch < s.pc.toNat) :
    stepEvent s = .fault (.outOfBounds s) := by
  rcases stepEvent_cases s with ⟨h, _⟩ | ⟨_, _, e⟩ | ⟨_, h, _⟩ | ⟨_, _, h, _⟩
  · exact absurd wait h
  · exact e
  all_goals exact absurd h outside.not_ge

/-- R122: the fetched word is the one whose number the two bytes at PC make, high byte first. -/
theorem State.fetchWord_eq_of_toNat {s : State} {w : Word}
    (h : w.toNat = 256 * (Memory.read s.mem s.pc.toNat).toNat + (Memory.read s.mem (s.pc.toNat + 1)).toNat) :
    s.fetchWord = w :=
  BitVec.eq_of_toNat_eq (s.fetchWord_toNat.trans h.symm)

/-- Settles O8: a wait, a PC outside the fetch bound, an illegal word, and the execution in the state advanced. -/
theorem stepEventInOrder : Obligations.StepEventInOrder := by
  refine fun s => ⟨stepEvent_of_waiting, stepEvent_of_outOfBounds, fun wait fetch w bytes => ?_⟩
  obtain rfl : s.fetchWord = w := State.fetchWord_eq_of_toNat bytes
  refine ⟨stepEvent_of_illegal wait fetch, fun i legal => ?_⟩
  exact ⟨s.advance, advance_pc_toNat fetch, Frame.advance s, stepEvent_of_executes ⟨wait, fetch, legal⟩⟩

/-! ## The move that runs the decoded instruction -/

/-- R123: what a step event executes is representable. -/
theorem State.executes.wellFormed {s : State} {i : Instr} (h : s.executes i) : WellFormed i := by
  obtain ⟨_, _, legal⟩ := h
  exact (represents_of_decode legal).2

/-- The list of events plays no part in which instruction is executed (log 1). -/
theorem State.executes.of_schedule {s : State} {i : Instr} (h : s.executes i) (es : List Event) :
    State.executes { s with schedule := es } i := h

/-- Settles O7: both kinds of list come down to the step event, with and without the entry taken off. -/
theorem stepRunsDecodedInstruction : Obligations.StepRunsDecodedInstruction := by
  intro s i exe
  have ⟨_, fetch, _⟩ := exe
  refine ⟨fun empty => ?_, fun rest listed => ?_, advance_pc_toNat fetch, Frame.advance s, exe.wellFormed⟩
  · rw [step_of_schedule_nil empty]
    exact stepEvent_of_executes exe
  · rw [step_of_schedule_cons listed, deliver_step]
    exact stepEvent_of_executes (exe.of_schedule rest)

end Sys2Proof.Machine
end

section
/-! SUPPORT. A word written out as a number decodes to the instruction it encodes (R108, R109). -/

namespace Sys2Proof

/-- R109 (1), for a word given in another form than `encode`'s. -/
theorem decode_of_eq_encode {i : Instr} {w : Word} (wf : WellFormed i) (h : w = encode i) : decode w = some i := by
  rw [h, decode_encode wf]

end Sys2Proof
end

section
/-! SUPPORT. The obligations of spec/41_control_flow.md: what a push and a pop answer where they complete or fault, the
frame of each, and the five control transfers. -/

namespace Sys2Proof.Machine

/-! ## The call stack (R142, R144) -/

/-- R144: with room on the stack a push completes. -/
theorem pushThen_of_lt {w : Word} {s : State} {k : State → State} (room : s.sp.toNat < 16) :
    pushThen w s k = .next (k { s with stack := s.stack.set s.sp.toNat w, sp := s.sp + 1 }) := by
  rcases pushThen_cases w s k with ⟨_, e⟩ | ⟨full, _⟩
  · exact e
  · omega

/-- R144: with sixteen entries or more a push overflows. -/
theorem pushThen_of_ge {w : Word} {s : State} {k : State → State} (full : 16 ≤ s.sp.toNat) :
    pushThen w s k = .fault (.stackOverflow s) := by
  rcases pushThen_cases w s k with ⟨room, _⟩ | ⟨_, e⟩
  · omega
  · exact e

/-- R142: with one to sixteen entries a pop completes. -/
theorem popThen_of_le {s : State} {k : Word → State → State} (nonempty : 1 ≤ s.sp.toNat) (le : s.sp.toNat ≤ 16) :
    popThen s k = .next (k s.stack[s.sp.toNat - 1] { s with sp := s.sp - 1 }) := by
  rcases popThen_cases s k with ⟨_, _, e⟩ | ⟨zero, _⟩ | ⟨deep, _⟩
  · exact e
  · simp [zero] at nonempty
  · omega

/-- R142: a pop underflows exactly when SP = 0, and raises no other fault. -/
theorem popThen_eq_fault_iff {s : State} {k : Word → State → State} {f : Fault} :
    popThen s k = .fault f ↔ s.sp = 0 ∧ f = .stackUnderflow s := by
  rcases popThen_cases s k with ⟨_, nonempty, e⟩ | ⟨zero, e⟩ | ⟨deep, e⟩ <;> rw [e]
  · exact iff_of_false nofun fun h => nonempty h.1
  · simp [zero, eq_comm]
  · refine iff_of_false nofun fun ⟨zero, _⟩ => ?_
    simp [zero] at deep

/-- R144: a push touches SP and the entry at the old SP, and nothing else. -/
theorem Frame.push {s : State} {w : Word} (room : s.sp.toNat < 16) :
    Frame (fun p => p = .sp ∨ ∃ k : Fin 16, k.val = s.sp.toNat ∧ p = .stack k) s
      { s with stack := s.stack.set s.sp.toNat w, sp := s.sp + 1 } := by
  intro p untouched
  cases p with
  | sp => exact absurd (.inl rfl) untouched
  | stack k => exact Vector.getElem_set_ne room _ fun here => untouched (.inr ⟨k, here.symm, rfl⟩)
  | _ => rfl

/-- Writing SP touches SP and nothing else: a pop erases no entry (R142). -/
theorem Frame.setSP (s : State) (b : Byte) : Frame (only .sp) s { s with sp := b } := by
  intro p untouched
  cases p with
  | sp => exact absurd rfl untouched
  | _ => rfl

/-! ## The control transfers -/

/-- R142: RET is a pop into PC. -/
theorem exec_ret (s : State) : exec .ret s = popThen s fun entry s' => s'.setPC entry := rfl

/-- R144: CALL is a push of PC, then the jump. -/
theorem exec_call (nnn : Addr12) (s : State) :
    exec (.call nnn) s = pushThen s.pc s fun s' => s'.setPC (zextAddr nnn) := rfl

/-- Settles O17: a pop of the newest entry, then the write of PC; the one fault of a pop is at SP = 0. -/
theorem retPopsReturnAddress : Obligations.RetPopsReturnAddress := by
  refine ⟨rfl, fun s => ?_⟩
  rw [exec_ret]
  refine ⟨fun nonempty le => ?_, fun zero => popThen_eq_fault_iff.2 ⟨zero, rfl⟩,
    fun f fault => (popThen_eq_fault_iff.1 fault).1⟩
  have sp_pred : (s.sp - 1).toNat = s.sp.toNat - 1 := BitVec.toNat_sub_of_le (BitVec.le_def.2 nonempty)
  refine ⟨_, popThen_of_le nonempty le, sp_pred, ?_, ?_⟩
  · rw [State.setPC_sp, sp_pred, State.setPC_pc]
    exact Vector.getElem?_eq_getElem _
  · exact ((Frame.setSP s _).mono fun _ => .inl).trans ((Frame.setPC _ _).mono fun _ => .inr)

/-- Settles O19: a push of PC, then the jump; without room the push overflows. -/
theorem callPushesReturnAddress : Obligations.CallPushesReturnAddress := by
  intro nnn s
  rw [exec_call]
  refine ⟨decode_of_eq_encode rfl (ofNat_eq_packNNN 0x2 nnn rfl), fun room => ?_, pushThen_of_ge⟩
  refine ⟨_, pushThen_of_lt room, Vector.getElem?_set_self room, ?_, zextAddr_toNat nnn, ?_⟩
  · exact BitVec.toNat_add_of_lt (show s.sp.toNat + 1 < 2 ^ 8 by omega)
  · exact ((Frame.push room).mono fun _ => .inr).trans ((Frame.setPC _ _).mono fun _ => .inl)

/-- Settles O21: from what CALL leaves and what RET pops; the entry RET reads is at the SP that CALL started from. -/
theorem returnResumesAfterCall : Obligations.ReturnResumesAfterCall := by
  intro nnn s t u called sp stack
  obtain ⟨_, pushes, overflows⟩ := callPushesReturnAddress nnn s
  have room : s.sp.toNat < 16 := by
    by_contra full
    cases called.symm.trans (overflows (not_lt.1 full))
  obtain ⟨t', called', entry, sp_succ, _, _⟩ := pushes room
  cases called.symm.trans called'
  obtain ⟨_, rets⟩ := retPopsReturnAddress
  obtain ⟨r, returned, sp_pred, popped, _⟩ := (rets u).1 (by rw [sp]; omega) (by rw [sp]; omega)
  have sp_back : r.sp.toNat = s.sp.toNat := by rw [sp_pred, sp, sp_succ, Nat.add_sub_cancel]
  rw [sp_back, stack, entry] at popped
  exact ⟨r, returned, (Option.some.inj popped).symm, BitVec.eq_of_toNat_eq sp_back⟩

/-- Settles O16: the no-op is `exec` of SYS itself, and the step that executes it is the advance alone. -/
theorem sysIsNoOp : Obligations.SysIsNoOp := by
  refine fun nnn s => ⟨fun notCls notRet => ?_, ⟨s, rfl, Frame.refl _ s⟩, fun exe => ?_⟩
  · have ok : sysFieldOk nnn = true := Bool.and_eq_true_iff.2 ⟨bne_iff_ne.2 notCls, bne_iff_ne.2 notRet⟩
    exact decode_of_eq_encode (i := .sys nnn) ok (ofNat_eq_packNNN 0x0 nnn (by simp))
  · have ⟨_, fetch, _⟩ := exe
    exact ⟨s.advance, stepEvent_of_executes_sys exe, advance_pc_toNat fetch, Frame.advance s⟩

/-- Settles O18: one write of PC, with the zero-extended address. -/
theorem jpSetsPc : Obligations.JpSetsPc := fun nnn s =>
  ⟨decode_of_eq_encode rfl (ofNat_eq_packNNN 0x1 nnn rfl), _, rfl, zextAddr_toNat nnn, Frame.setPC s _⟩

/-- R145: an address of 12 bits and a byte add up without a wrap. -/
theorem zextAddr_add_zextByte_toNat (nnn : Addr12) (b : Byte) :
    (zextAddr nnn + zextByte b).toNat = nnn.toNat + b.toNat := by
  have := nnn.isLt
  have := b.isLt
  rw [BitVec.toNat_add, zextAddr_toNat, zextByte_toNat]
  omega

/-- Settles O20: one write of PC, with a sum that does not wrap. -/
theorem jpV0AddsV0 : Obligations.JpV0AddsV0 := fun nnn s =>
  ⟨decode_of_eq_encode rfl (ofNat_eq_packNNN 0xB nnn rfl), _, rfl, zextAddr_add_zextByte_toNat nnn _, Frame.setPC s _⟩

end Sys2Proof.Machine
end

section
/-! SUPPORT. The obligations of spec/42_skips.md: what a completed conditional skip does, what a key test answers, and
the illegal words of groups 5 and 9. -/

namespace Sys2Proof.Machine

/-! ## The conditional skip (R150) -/

/-- R150: an instruction that completes with `skipIf` skips exactly when its test holds. -/
theorem SkipsWhen.of_skipIf {c : Prop} {test : Bool} {i : Instr} {s : State}
    (done : exec i s = .next (s.skipIf test)) (holds : test = true ↔ c) : SkipsWhen c i s := by
  refine ⟨_, done, fun yes => ?_, fun no => ?_, Frame.skipIf s test⟩
  · rw [State.skipIf_eq, State.setPC_pc, if_pos (holds.2 yes)]
  · rw [State.skipIf_eq, State.setPC_pc, if_neg (mt holds.1 no)]

/-- R153: SE_R_R skips when the two registers are equal. -/
theorem skipsWhen_seRR (x y : Reg) (s : State) : SkipsWhen (s.reg x = s.reg y) (.seRR x y) s :=
  .of_skipIf rfl beq_iff_eq

/-- R154: SNE_R_R skips when the two registers differ. -/
theorem skipsWhen_sneRR (x y : Reg) (s : State) : SkipsWhen (s.reg x ≠ s.reg y) (.sneRR x y) s :=
  .of_skipIf rfl bne_iff_ne

/-! ## The key test (R155) -/

/-- R155: a byte that names a key goes on with that key. -/
theorem keyThen_of_val_eq {b : Byte} {s : State} {k : Key → State} {j : Key} (names : j.val = b.toNat) :
    keyThen b s k = .next (k j) := by
  rcases keyThen_cases b s k with ⟨lt, e⟩ | ⟨large, _⟩
  · rw [e, show j = ⟨b.toNat, lt⟩ from Fin.ext names]
  · have := j.isLt
    omega

/-- R155: a byte of 16 or more names no key. -/
theorem keyThen_of_ge {b : Byte} {s : State} {k : Key → State} (large : 16 ≤ b.toNat) :
    keyThen b s k = .fault (.invalidKeyIndex s) := by
  rcases keyThen_cases b s k with ⟨lt, _⟩ | ⟨_, e⟩
  · omega
  · exact e

/-- R155: SKP goes on with a skip when the key is down. -/
theorem exec_skp (x : Reg) (s : State) : exec (.skp x) s = keyThen (s.reg x) s fun k => s.skipIf (s.keyAt k) := rfl

/-- R156: SKNP goes on with a skip when the key is up. -/
theorem exec_sknp (x : Reg) (s : State) : exec (.sknp x) s = keyThen (s.reg x) s fun k => s.skipIf (!s.keyAt k) := rfl

/-! ## The illegal words of groups 5 and 9 (R153, R154) -/

/-- R104: in groups 5 and 9 a low nibble of 1 to F makes a word illegal. -/
theorem decode_eq_none_of_low_nibble {a : Nat} (group : a = 5 ∨ a = 9) (x y : Reg) {z : Nat} (pos : 0 < z)
    (lt : z < 16) : decode (BitVec.ofNat 16 (4096 * a + 256 * x.val + 16 * y.val + z)) = none := by
  have := x.isLt
  have := y.isLt
  refine (decode_eq_none_iff _).2 (.inl ?_)
  rw [BitVec.toNat_ofNat]
  omega

/-! ## The obligations -/

/-- Settles O24: both instructions are a key test that goes on with a skip; only what they test differs. -/
theorem skipsTestKey : Obligations.SkipsTestKey := by
  refine fun x s => ⟨?_, ?_, fun k names => ⟨?_, ?_⟩, fun large => ⟨?_, ?_⟩⟩
  · exact decode_of_eq_encode rfl (ofNat_eq_packXKK 0xE x 0x9E (by simp; omega))
  · exact decode_of_eq_encode rfl (ofNat_eq_packXKK 0xE x 0xA1 (by simp; omega))
  · exact .of_skipIf ((exec_skp x s).trans (keyThen_of_val_eq names)) Iff.rfl
  · exact .of_skipIf ((exec_sknp x s).trans (keyThen_of_val_eq names)) (by simp)
  · rw [exec_skp, keyThen_of_ge large]
  · rw [exec_sknp, keyThen_of_ge large]

/-- Settles O22: both complete with a skip, on equality and on its negation. -/
theorem skipsCompareByte : Obligations.SkipsCompareByte := by
  refine fun x kk s => ⟨?_, ?_, .of_skipIf rfl beq_iff_eq, .of_skipIf rfl bne_iff_ne⟩
  · exact decode_of_eq_encode rfl (ofNat_eq_packXKK 0x3 x kk (by simp; omega))
  · exact decode_of_eq_encode rfl (ofNat_eq_packXKK 0x4 x kk (by simp; omega))

/-- Settles O23: with x = y the comparison is of a register with itself. -/
theorem skipsCompareRegisters : Obligations.SkipsCompareRegisters := by
  refine fun x y s => ⟨?_, ?_, skipsWhen_seRR x y s, skipsWhen_sneRR x y s, fun z pos lt => ⟨?_, ?_⟩, ?_, ?_⟩
  · exact decode_of_eq_encode rfl (ofNat_eq_packXYZ 0x5 x y 0x0 (by simp; omega))
  · exact decode_of_eq_encode rfl (ofNat_eq_packXYZ 0x9 x y 0x0 (by simp; omega))
  · exact decode_eq_none_of_low_nibble (.inl rfl) x y pos lt
  · exact decode_eq_none_of_low_nibble (.inr rfl) x y pos lt
  · simpa using skipsWhen_seRR x x s
  · simpa using skipsWhen_sneRR x x s

end Sys2Proof.Machine
end

section
/-! SUPPORT. The obligations of spec/43_load_alu.md: the words of the two formats, the value of each result and flag as
a number, and the two shapes an instruction of this chapter completes with. -/

namespace Sys2Proof.Machine

/-! ## The words of the load, arithmetic and logic instructions (R92, R100) -/

/-- Format XKK with its operands written out as a number decodes to its instruction (R109). -/
theorem decode_ofNat_xkk {i : Instr} (wf : WellFormed i) {a : BitVec 4} {x : Reg} {kk : Byte} {base : Nat}
    (enc : encode i = packXKK a x kk) (fixed : base = 4096 * a.toNat) :
    decode (BitVec.ofNat 16 (base + 256 * x.val + kk.toNat)) = some i :=
  decode_of_eq_encode wf ((ofNat_eq_packXKK a x kk (by omega)).trans enc.symm)

/-- Format XY with its operands written out as a number decodes to its instruction (R109). -/
theorem decode_ofNat_xy {i : Instr} (wf : WellFormed i) {a : BitVec 4} {x y : Reg} {z : Fin 16} {base : Nat}
    (enc : encode i = packXYZ a x y z) (fixed : base = 4096 * a.toNat + z.val) :
    decode (BitVec.ofNat 16 (base + 256 * x.val + 16 * y.val)) = some i :=
  decode_of_eq_encode wf ((ofNat_eq_packXYZ a x y z (by omega)).trans enc.symm)

/-! ## Results and flags as numbers (R160, R170, R172) -/

theorem addByte_toNat (a b : Byte) : (addByte a b).toNat = (a.toNat + b.toNat) % 256 := BitVec.toNat_ofNat ..

theorem carryOut_iff (a b : Byte) : carryOut a b = true ↔ 256 ≤ a.toNat + b.toNat := decide_eq_true_iff

theorem subByte_toNat (a b : Byte) : (subByte a b).toNat = (a.toNat + 256 - b.toNat) % 256 := BitVec.toNat_ofNat ..

theorem notBorrow_iff (a b : Byte) : notBorrow a b = true ↔ b.toNat ≤ a.toNat := decide_eq_true_iff

theorem shiftRight1_toNat (a : Byte) : (shiftRight1 a).toNat = a.toNat / 2 := by
  rw [shiftRight1, BitVec.toNat_ushiftRight, Nat.shiftRight_eq_div_pow, pow_one]

theorem outRight_iff (a : Byte) : outRight a = true ↔ a.toNat % 2 = 1 := by
  rw [outRight, BitVec.getLsbD, Nat.testBit_zero, decide_eq_true_iff]

theorem shiftLeft1_toNat (a : Byte) : (shiftLeft1 a).toNat = 2 * a.toNat % 256 := by
  rw [shiftLeft1, BitVec.toNat_shiftLeft, Nat.shiftLeft_eq, pow_one, Nat.mul_comm]

/-- R172: bit 7 is the top bit of a byte. -/
theorem outLeft_iff (a : Byte) : outLeft a = true ↔ 128 ≤ a.toNat := by
  have := a.isLt
  rw [outLeft, BitVec.getLsbD, Nat.testBit_eq_decide_div_mod_eq, decide_eq_true_iff]
  omega

/-! ## The shapes these instructions complete with (R161) -/

/-- An instruction that completes with one register write gives that result. -/
theorem GivesResult.of_setReg {i : Instr} {s : State} {x : Reg} {b : Byte} (done : exec i s = .next (s.setReg x b)) :
    GivesResult i s x b :=
  ⟨_, done, s.reg_setReg_self x b, Frame.setReg s x b⟩

/-- R161: an instruction that completes with a result and a flag gives both; the flag is written last, so VF as
destination holds it. -/
theorem GivesResultAndFlag.of_setResultFlag {i : Instr} {s : State} {x : Reg} {r : Byte} {f : Bool} {result : Nat}
    {flag : Prop} (done : exec i s = .next (s.setResultFlag x r f)) (value : r.toNat = result)
    (holds : f = true ↔ flag) : GivesResultAndFlag i s x result flag := by
  refine ⟨_, done, fun yes => ?_, fun no => ?_, fun notVF => ?_, Frame.setResultFlag s x r f⟩
  · rw [State.setResultFlag_vF, holds.2 yes, flagByte, if_pos rfl]
  · rw [State.setResultFlag_vF, flagByte, if_neg (mt holds.1 no)]
  · rw [State.setResultFlag_reg s r f notVF, value]

/-- Counting a draw touches the counter and nothing else (log 2). -/
theorem Frame.setDraws (s : State) (n : Nat) : Frame (only .draws) s { s with draws := n } := by
  intro p untouched
  cases p with
  | draws => exact absurd rfl untouched
  | _ => rfl

/-! ## The obligations -/

/-- Settles O27: both write `addByte` and then `carryOut`, of VX and the immediate or VY. -/
theorem addsGiveSumAndCarry : Obligations.AddsGiveSumAndCarry := by
  refine fun x y kk s => ⟨decode_ofNat_xkk rfl rfl rfl, decode_ofNat_xy rfl rfl rfl, ?_, ?_⟩
  · exact .of_setResultFlag rfl (addByte_toNat _ kk) (carryOut_iff _ kk)
  · exact .of_setResultFlag rfl (addByte_toNat _ _) (carryOut_iff _ _)

/-- Settles O28: both write `subByte` and then `notBorrow`; SUBN exchanges the operands. -/
theorem subtractsGiveDifferenceAndNotBorrow : Obligations.SubtractsGiveDifferenceAndNotBorrow := by
  refine fun x y s => ⟨decode_ofNat_xy rfl rfl rfl, decode_ofNat_xy rfl rfl rfl, ?_, ?_⟩
  · exact .of_setResultFlag rfl (subByte_toNat _ _) (notBorrow_iff _ _)
  · exact .of_setResultFlag rfl (subByte_toNat _ _) (notBorrow_iff _ _)

/-- Settles O29: a shift halves or doubles VX, and the bit it moves out is its parity or its top bit. -/
theorem shiftsMoveVxByOne : Obligations.ShiftsMoveVxByOne := by
  refine fun x y s => ⟨decode_ofNat_xy rfl rfl rfl, decode_ofNat_xy rfl rfl rfl, ?_, ?_⟩
  · exact .of_setResultFlag rfl (shiftRight1_toNat _) (outRight_iff _)
  · exact .of_setResultFlag rfl (shiftLeft1_toNat _) (outLeft_iff _)

/-- Settles O25: one register write each, of the immediate and of VY. -/
theorem loadsWriteOneRegister : Obligations.LoadsWriteOneRegister := fun _ _ _ _ =>
  ⟨decode_ofNat_xkk rfl rfl rfl, decode_ofNat_xy rfl rfl rfl, .of_setReg rfl, .of_setReg rfl⟩

/-- Settles O26: one register write each, of the bitwise operation on the whole bytes. -/
theorem logicIsBitwise : Obligations.LogicIsBitwise := by
  refine fun x y s => ⟨decode_ofNat_xy rfl rfl rfl, decode_ofNat_xy rfl rfl rfl, decode_ofNat_xy rfl rfl rfl,
    s.reg x ||| s.reg y, s.reg x &&& s.reg y, s.reg x ^^^ s.reg y, fun j _ => ⟨?_, ?_, ?_⟩,
    .of_setReg rfl, .of_setReg rfl, .of_setReg rfl⟩
  · exact BitVec.getLsbD_or
  · exact BitVec.getLsbD_and
  · exact BitVec.getLsbD_xor

/-- Settles O30: a register write of the masked draw, then the count of the draw. -/
theorem rndMasksTheDraw : Obligations.RndMasksTheDraw := by
  refine fun x kk s => ⟨decode_ofNat_xkk rfl rfl rfl, _, rfl, fun j _ => ?_, rfl, ?_⟩
  · exact (congrArg (·.getLsbD j) (s.reg_setReg_self x _)).trans BitVec.getLsbD_and
  · exact ((Frame.setReg s x _).mono fun _ => .inl).trans ((Frame.setDraws _ _).mono fun _ => .inr)

end Sys2Proof.Machine
end

section
/-! SUPPORT. The obligations of spec/44_index_memory.md: the words of format X, what a bounded block store and a bounded
block load answer where they complete or fault, and the instructions of the chapter. -/

namespace Sys2Proof.Machine

/-! ## The words of format X (R92) -/

/-- Format X with its register written out as a number decodes to its instruction (R109). -/
theorem decode_ofNat_x {i : Instr} (wf : WellFormed i) {a : BitVec 4} {x : Reg} {low : Byte} {base : Nat}
    (enc : encode i = packXKK a x low) (fixed : base = 4096 * a.toNat + low.toNat) :
    decode (BitVec.ofNat 16 (base + 256 * x.val)) = some i :=
  decode_of_eq_encode wf ((ofNat_eq_packXKK a x low (by omega)).trans enc.symm)

/-! ## Block stores and block loads (R65, R180) -/

/-- R66: inside a written block each place reads back its own byte. -/
theorem Memory.read_writeBytes_add {m : List Host.Cell} (wf : Memory.wf m) (a : Nat) {xs : List Byte} {k : Nat}
    (inside : k < xs.length) : Memory.read (Memory.writeBytes m a xs) (a + k) = xs.getD k 0 := by
  rw [Memory.read_writeBytes _ wf.1, if_pos (by omega), Nat.add_sub_cancel_left]

/-- R65, R180: a block whose last byte is inside memory is stored byte by byte, and nothing else changes. -/
theorem storeBytes_of_le {a n : Nat} {xs : List Byte} {s : State} (wf : Memory.wf s.mem) (length : xs.length = n + 1)
    (fits : a + n ≤ Config.lastAddr) :
    ∃ t, storeBytes a xs s = .next t ∧ (∀ k ≤ n, Memory.read t.mem (a + k) = xs.getD k 0) ∧
      Frame (fun p => ∃ k ≤ n, p = .mem (a + k)) s t := by
  rcases storeBytes_cases a xs s with ⟨_, e⟩ | ⟨exceeds, _⟩
  · refine ⟨_, e, fun k le => Memory.read_writeBytes_add wf a (by omega), ?_⟩
    exact (Frame.writeBytes wf a xs).mono fun p ⟨k, lt, named⟩ => ⟨k, by omega, named⟩
  · exact absurd (.inr (length ▸ Nat.succ_le_succ fits)) exceeds

/-- R65, R180: of a block whose last byte is past the end of memory no byte is stored. -/
theorem storeBytes_of_gt {a n : Nat} {xs : List Byte} {s : State} (length : xs.length = n + 1)
    (exceeds : Config.lastAddr < a + n) : storeBytes a xs s = .fault (.outOfBounds s) := by
  rcases storeBytes_cases a xs s with ⟨empty | fits, _⟩ | ⟨_, e⟩
  · omega
  · rw [length] at fits
    exact absurd (Nat.le_of_succ_le_succ fits) exceeds.not_ge
  · exact e

/-- R65, R180: a load whose last byte is inside memory goes on with the bytes of the range. -/
theorem withBytes_of_le {a n : Nat} {s : State} {k : List Byte → Result} (fits : a + n ≤ Config.lastAddr) :
    withBytes a (n + 1) s k = k (Memory.readBytes s.mem a (n + 1)) := by
  rcases withBytes_cases a (n + 1) s k with ⟨_, e⟩ | ⟨exceeds, _⟩
  · exact e
  · exact absurd (.inr (Nat.succ_le_succ fits)) exceeds

/-- R65, R180: a load whose last byte is past the end of memory reads no byte. -/
theorem withBytes_of_gt {a n : Nat} {s : State} {k : List Byte → Result} (exceeds : Config.lastAddr < a + n) :
    withBytes a (n + 1) s k = .fault (.outOfBounds s) := by
  rcases withBytes_cases a (n + 1) s k with ⟨empty | fits, _⟩ | ⟨_, e⟩
  · cases empty
  · exact absurd (Nat.le_of_succ_le_succ fits) exceeds.not_ge
  · exact e

/-! ## What the instructions answer with -/

/-- R184: LD_B_R is a block store of three digits. -/
theorem exec_ldBR (x : Reg) (s : State) : exec (.ldBR x) s = storeBytes s.base (decimalDigits (s.reg x)) s := rfl

/-- R185: LD_II_R is a block store of V0 to VX. -/
theorem exec_ldIIR (x : Reg) (s : State) : exec (.ldIIR x) s = storeBytes s.base (s.regBlock x) s := rfl

/-- R187: LD_R_II is a block load into V0 to VX. -/
theorem exec_ldRII (x : Reg) (s : State) :
    exec (.ldRII x) s = withBytes s.base (x.val + 1) s fun bytes => .next (s.setRegBlock 0 bytes) := rfl

/-- R184: the three stored bytes are the decimal digits themselves; none is narrowed. -/
theorem decimalDigits_toNat (b : Byte) :
    ((decimalDigits b).getD 0 0).toNat = b.toNat / 100 ∧ ((decimalDigits b).getD 1 0).toNat = b.toNat / 10 % 10 ∧
      ((decimalDigits b).getD 2 0).toNat = b.toNat % 10 := by
  have := b.isLt
  refine ⟨?_, ?_, ?_⟩ <;> refine (BitVec.toNat_ofNat _ 8).trans (Nat.mod_eq_of_lt ?_) <;> omega

/-- R187: after the load of V0 to VX, VK is the byte at place K of the range. -/
theorem State.setRegBlock_readBytes_reg (s : State) {x k : Reg} (inside : k ≤ x) (m : List Host.Cell) (a : Nat) :
    (s.setRegBlock 0 (Memory.readBytes m a (x.val + 1))).reg k = Memory.read m (a + k.val) := by
  have below : k.val < x.val + 1 := Nat.lt_succ_of_le inside
  rw [State.setRegBlock_reg k _ s 0 (by simp), if_pos (by simpa using below), Nat.sub_zero,
    Memory.getD_readBytes m a below]

/-- R187: the load of V0 to VX touches these registers and nothing else. -/
theorem Frame.setRegBlock_readBytes (s : State) (x : Reg) (m : List Host.Cell) (a : Nat) :
    Frame (fun p => ∃ k ≤ x, p = .reg k) s (s.setRegBlock 0 (Memory.readBytes m a (x.val + 1))) := by
  refine (Frame.setRegBlock s _ (by simp)).mono fun p ⟨k, below, named⟩ => ⟨k, ?_, named⟩
  rw [Memory.length_readBytes] at below
  exact Nat.le_of_lt_succ below

/-- R182: ADD_I_R adds the byte to I modulo 65536. -/
theorem add_zextByte_toNat (w : Word) (b : Byte) : (w + zextByte b).toNat = (w.toNat + b.toNat) % 65536 := by
  rw [BitVec.toNat_add, zextByte_toNat]

/-- R183: five times a byte does not wrap. -/
theorem five_mul_zextByte_toNat (b : Byte) : (5 * zextByte b).toNat = 5 * b.toNat := by
  have := b.isLt
  rw [BitVec.toNat_mul, zextByte_toNat]
  exact Nat.mod_eq_of_lt (show 5 * b.toNat < 65536 by omega)

/-! ## The obligations -/

/-- Settles O34: a block store of the three digits. -/
theorem ldBRStoresDecimalDigits : Obligations.LdBRStoresDecimalDigits := by
  intro x s
  rw [exec_ldBR]
  refine ⟨decode_ofNat_x rfl rfl rfl, fun fits wf => ?_, storeBytes_of_gt (length_decimalDigits _)⟩
  obtain ⟨t, done, bytes, frame⟩ := storeBytes_of_le wf (length_decimalDigits (s.reg x)) fits
  obtain ⟨hundreds, tens, ones⟩ := decimalDigits_toNat (s.reg x)
  refine ⟨t, done, ?_, ?_, ?_, frame.mono fun p ⟨k, le, named⟩ => ⟨k, Nat.lt_succ_of_le le, named⟩⟩
  · exact (congrArg BitVec.toNat (bytes 0 (by decide))).trans hundreds
  · exact (congrArg BitVec.toNat (bytes 1 (by decide))).trans tens
  · exact (congrArg BitVec.toNat (bytes 2 (by decide))).trans ones

/-- Settles O35: a block store of V0 to VX. -/
theorem ldIIRStoresRegisters : Obligations.LdIIRStoresRegisters := by
  intro x s
  rw [exec_ldIIR]
  refine ⟨decode_ofNat_x rfl rfl rfl, fun fits wf => ?_, storeBytes_of_gt (s.length_regBlock x)⟩
  obtain ⟨t, done, bytes, frame⟩ := storeBytes_of_le wf (s.length_regBlock x) fits
  exact ⟨t, done, fun k inside => (bytes k inside).trans (s.getD_regBlock inside), frame⟩

/-- Settles O36: a bounded load of x + 1 bytes, then the write of the block V0 to VX. -/
theorem ldRIILoadsRegisters : Obligations.LdRIILoadsRegisters := by
  intro x s
  rw [exec_ldRII]
  refine ⟨decode_ofNat_x rfl rfl rfl, fun fits => ?_, withBytes_of_gt⟩
  refine ⟨_, withBytes_of_le fits, fun k inside => s.setRegBlock_readBytes_reg inside s.mem s.base, ?_⟩
  exact Frame.setRegBlock_readBytes s x s.mem s.base

/-- Settles O37: the store left I where it was, so the load reads the places just written. -/
theorem storedBlockLoadsBack : Obligations.StoredBlockLoadsBack := by
  intro x s t u wf stored mem i
  obtain ⟨_, stores, faults⟩ := ldIIRStoresRegisters x s
  have fits : s.base + x.val ≤ 0xFFF := by
    by_contra exceeds
    cases stored.symm.trans (faults (not_le.1 exceeds))
  obtain ⟨t', stored', bytes, frame⟩ := stores fits wf
  cases stored.symm.trans stored'
  have base : u.base = s.base := congrArg BitVec.toNat (i.trans (frame .i (by simp)))
  obtain ⟨_, loads, _⟩ := ldRIILoadsRegisters x u
  obtain ⟨r, loaded, regs, _⟩ := loads (base ▸ fits)
  exact ⟨r, loaded, fun k inside => by rw [regs k inside, mem, base, bytes k inside]⟩

/-- Settles O33: one write of I each. -/
theorem addressRegisterWrites : Obligations.AddressRegisterWrites := fun nnn _ s =>
  ⟨decode_of_eq_encode rfl (ofNat_eq_packNNN 0xA nnn rfl), decode_ofNat_x rfl rfl rfl, decode_ofNat_x rfl rfl rfl,
    ⟨_, rfl, zextAddr_toNat nnn, Frame.setI s _⟩,
    ⟨_, rfl, add_zextByte_toNat s.i _, Frame.setI s _⟩,
    ⟨_, rfl, five_mul_zextByte_toNat _, Frame.setI s _⟩⟩

end Sys2Proof.Machine
end

section
/-! SUPPORT. The obligations of spec/45_display.md: what every part of the blitter does to the pixels and to the
collision bit, put together from cells to columns, rows and sprites, and the display instructions. -/

namespace Sys2Proof.Machine

/-! ## What the blitter does to a set of cells (R190, R194) -/

/-- From `dc` to `dc'` exactly the pixels of the cells in `bits` are inverted, and the collision bit has recorded whether
one of them was set (R190, R194). -/
structure XorsIn (bits : Fin 64 → Fin 32 → Prop) (dc dc' : Display × Bool) : Prop where
  inverted : ∀ xx yy, bits xx yy → Display.pixel dc'.1 xx yy = !Display.pixel dc.1 xx yy
  kept : ∀ xx yy, ¬ bits xx yy → Display.pixel dc'.1 xx yy = Display.pixel dc.1 xx yy
  collides : dc'.2 = true ↔ dc.2 = true ∨ ∃ xx yy, Display.pixel dc.1 xx yy = true ∧ bits xx yy

section XorsIn

variable {a b : Fin 64 → Fin 32 → Prop} {dc dc' dc'' : Display × Bool}

/-- The set of cells may be described in another way. -/
theorem XorsIn.congr (h : XorsIn a dc dc') (same : ∀ xx yy, a xx yy ↔ b xx yy) : XorsIn b dc dc' := by
  obtain rfl : a = b := funext fun xx => funext fun yy => propext (same xx yy)
  exact h

/-- No cell at all: nothing is drawn, and nothing collides (R195). -/
theorem XorsIn.of_empty (empty : ∀ xx yy, ¬ a xx yy) (dc : Display × Bool) : XorsIn a dc dc where
  inverted xx yy bit := absurd bit (empty xx yy)
  kept _ _ _ := rfl
  collides := ⟨.inl, fun h => h.resolve_right fun ⟨xx, yy, _, bit⟩ => empty xx yy bit⟩

/-- Two drawings on cells apart from each other are one drawing on the cells of both: the second meets its pixels as
they were before the first. -/
theorem XorsIn.trans (first : XorsIn a dc dc') (second : XorsIn b dc' dc'') (apart : ∀ xx yy, b xx yy → ¬ a xx yy) :
    XorsIn (fun xx yy => a xx yy ∨ b xx yy) dc dc'' where
  inverted xx yy bit := by
    rcases bit with inA | inB
    · rw [second.kept xx yy fun inB => apart xx yy inB inA, first.inverted xx yy inA]
    · rw [second.inverted xx yy inB, first.kept xx yy (apart xx yy inB)]
  kept xx yy noBit := by
    rw [second.kept xx yy (mt .inr noBit), first.kept xx yy (mt .inl noBit)]
  collides := by
    have met : ∀ xx yy, (Display.pixel dc'.1 xx yy = true ∧ b xx yy) ↔ (Display.pixel dc.1 xx yy = true ∧ b xx yy) :=
      fun xx yy => and_congr_left fun inB => by rw [first.kept xx yy (apart xx yy inB)]
    simp only [second.collides, first.collides, met, and_or_left, exists_or, or_assoc]

/-- Drawing on the same cells again restores every pixel (R192). -/
theorem XorsIn.restores {hit : Bool} (first : XorsIn a dc dc') (second : XorsIn a (dc'.1, hit) dc'')
    (xx : Fin 64) (yy : Fin 32) : Display.pixel dc''.1 xx yy = Display.pixel dc.1 xx yy := by
  by_cases bit : a xx yy
  · rw [second.inverted xx yy bit, first.inverted xx yy bit, Bool.not_not]
  · rw [second.kept xx yy bit, first.kept xx yy bit]

/-- On a clear display every cell drawn on ends up set. -/
theorem XorsIn.pixel_of_clear (h : XorsIn a dc dc') (clear : ∀ xx yy, Display.pixel dc.1 xx yy = false)
    (xx : Fin 64) (yy : Fin 32) : Display.pixel dc'.1 xx yy = true ↔ a xx yy := by
  by_cases bit : a xx yy
  · simp [h.inverted xx yy bit, clear xx yy, bit]
  · simp [h.kept xx yy bit, clear xx yy, bit]

/-- A collision bit that started at 0 says whether a set pixel met a 1 bit (R190). -/
theorem XorsIn.collides_of_false {d : Display} (h : XorsIn a (d, false) dc) :
    dc.2 = true ↔ ∃ xx yy, Display.pixel d xx yy = true ∧ a xx yy :=
  h.collides.trans (or_iff_right Bool.false_ne_true)

end XorsIn

/-! ## From one cell to a sprite (R190, R193) -/

theorem wrapX_eq_iff (m : Nat) (xx : Fin 64) : xx = wrapX m ↔ m % 64 = xx.val :=
  Fin.ext_iff.trans eq_comm

theorem wrapY_eq_iff (m : Nat) (yy : Fin 32) : yy = wrapY m ↔ m % 32 = yy.val :=
  Fin.ext_iff.trans eq_comm

/-- One cell of the blitter draws on its cell if the sprite bit is 1 (R190). -/
theorem xorsIn_blitPixel (xx : Fin 64) (yy : Fin 32) (bit : Bool) (dc : Display × Bool) :
    XorsIn (fun xx' yy' => bit = true ∧ xx' = xx ∧ yy' = yy) dc (blitPixel xx yy bit dc) where
  inverted xx' yy' here := by
    rw [blitPixel_pixel, if_pos here.2, here.1, Bool.xor_true]
  kept xx' yy' elsewhere := by
    rw [blitPixel_pixel]
    split
    · next here => rw [Bool.eq_false_iff.2 fun one => elsewhere ⟨one, here⟩, Bool.xor_false]
    · rfl
  collides := by simp [blitPixel, and_comm]

/-- A 1 bit among the first `n` columns of a sprite row falls on the cell (R190, R193). -/
def rowBit (byte : Byte) (n x0 y : Nat) (xx : Fin 64) (yy : Fin 32) : Prop :=
  ∃ col < n, byte.getLsbD (7 - col) = true ∧ (x0 + col) % 64 = xx.val ∧ y % 32 = yy.val

/-- The first n + 1 columns are the first `n` and the one after them. -/
theorem rowBit_succ (byte : Byte) (n x0 y : Nat) (xx : Fin 64) (yy : Fin 32) :
    rowBit byte (n + 1) x0 y xx yy ↔ rowBit byte n x0 y xx yy ∨
      byte.getLsbD (7 - n) = true ∧ xx = wrapX (x0 + n) ∧ yy = wrapY y := by
  rw [rowBit, Nat.exists_lt_succ_right, wrapX_eq_iff, wrapY_eq_iff]
  rfl

/-- The first `n` columns of a row draw on the cells of their 1 bits: up to 64 of them are on cells apart. -/
theorem xorsIn_blitCols (x0 y : Nat) (byte : Byte) (dc : Display × Bool) {n : Nat} (fits : n ≤ 64) :
    XorsIn (rowBit byte n x0 y) dc ((List.range n).foldl
      (fun dc col => blitPixel (wrapX (x0 + col)) (wrapY y) (byte.getLsbD (7 - col)) dc) dc) := by
  induction n with
  | zero => exact .of_empty (fun xx yy ⟨col, lt, _⟩ => absurd lt col.not_lt_zero) dc
  | succ n ih =>
    rw [List.range_succ, List.foldl_append]
    refine ((ih (by omega)).trans (xorsIn_blitPixel _ _ _ _) ?_).congr fun xx yy => (rowBit_succ ..).symm
    rintro xx yy ⟨-, column, -⟩ ⟨col, lt, -, earlier, -⟩
    rw [wrapX_eq_iff] at column
    omega

/-- A sprite row draws on the cells of its 1 bits. -/
theorem xorsIn_blitRow (x0 y : Nat) (byte : Byte) (dc : Display × Bool) :
    XorsIn (rowBit byte 8 x0 y) dc (blitRow x0 y byte dc) :=
  xorsIn_blitCols x0 y byte dc (by decide)

/-- The 1 bits of a sprite are those of its first row and those of the rows below. -/
theorem spriteBit_cons (b : Byte) (bs : List Byte) (x0 y0 : Nat) (xx : Fin 64) (yy : Fin 32) :
    spriteBit (fun row => (b :: bs).getD row 0) (b :: bs).length x0 y0 xx yy ↔
      rowBit b 8 x0 y0 xx yy ∨ spriteBit (fun row => bs.getD row 0) bs.length x0 (y0 + 1) xx yy := by
  constructor
  · rintro ⟨_ | row, col, inRows, inCols, x, y, bit⟩
    · exact .inl ⟨col, inCols, bit, x, y⟩
    · exact .inr ⟨row, col, Nat.lt_of_succ_lt_succ inRows, inCols, x, by omega, bit⟩
  · rintro (⟨col, inCols, bit, x, y⟩ | ⟨row, col, inRows, inCols, x, y, bit⟩)
    · exact ⟨0, col, Nat.succ_pos _, inCols, x, y, bit⟩
    · exact ⟨row + 1, col, Nat.succ_lt_succ inRows, inCols, x, by omega, bit⟩

/-- A sprite draws on the cells of its 1 bits: up to 32 rows are on cells apart. -/
theorem xorsIn_blitRows (x0 : Nat) (bytes : List Byte) (y0 : Nat) (dc : Display × Bool) (fits : bytes.length ≤ 32) :
    XorsIn (spriteBit (fun row => bytes.getD row 0) bytes.length x0 y0) dc (blitRows x0 y0 bytes dc) := by
  induction bytes generalizing y0 dc with
  | nil => exact .of_empty (fun xx yy ⟨row, _, inRows, _⟩ => absurd inRows row.not_lt_zero) dc
  | cons b bs ih =>
    rw [List.length_cons] at fits
    refine ((xorsIn_blitRow x0 y0 b dc).trans (ih (y0 + 1) _ (by omega)) ?_).congr fun xx yy =>
      (spriteBit_cons b bs x0 y0 xx yy).symm
    rintro xx yy ⟨row, col, inRows, -, -, below, -⟩ ⟨-, -, -, -, first⟩
    omega

/-- Some cell has a 1 bit of the sprite exactly when the sprite has a 1 bit: every bit falls on some cell (R193). -/
theorem exists_spriteBit_iff (rowByte : Nat → Byte) (n x0 y0 : Nat) :
    (∃ xx yy, spriteBit rowByte n x0 y0 xx yy) ↔
      ∃ row col, row < n ∧ col < 8 ∧ (rowByte row).getLsbD (7 - col) = true := by
  constructor
  · rintro ⟨xx, yy, row, col, inRows, inCols, -, -, bit⟩
    exact ⟨row, col, inRows, inCols, bit⟩
  · rintro ⟨row, col, inRows, inCols, bit⟩
    exact ⟨wrapX (x0 + col), wrapY (y0 + row), row, col, inRows, inCols, rfl, rfl, bit⟩

/-! ## DRW -/

/-- The sprite of a DRW is the one whose rows are the n bytes read from I on (R192). -/
theorem drwBit_iff (s : State) (x y : Reg) (n : Nat) (xx : Fin 64) (yy : Fin 32) :
    drwBit s x y n xx yy ↔ spriteBit (fun row => (Memory.readBytes s.mem s.base n).getD row 0)
      (Memory.readBytes s.mem s.base n).length (s.reg x).toNat (s.reg y).toNat xx yy := by
  rw [Memory.length_readBytes, drwBit]
  refine exists₂_congr fun row col => and_congr_right fun inRows => ?_
  beta_reduce
  rw [Memory.getD_readBytes s.mem s.base inRows]

/-- The sprite of a DRW depends on memory, I, VX and VY. -/
theorem drwBit_congr {s u : State} {x y : Reg} (mem : ∀ a, Memory.read u.mem a = Memory.read s.mem a)
    (base : u.base = s.base) (vx : u.reg x = s.reg x) (vy : u.reg y = s.reg y) (n : Nat) :
    drwBit u x y n = drwBit s x y n := by
  funext xx yy
  simp only [drwBit, mem, base, vx, vy]

/-- The sprite of these bytes drawn at (VX, VY), and VF the collision, written last (R192). -/
def State.drawSprite (s : State) (x y : Reg) (bytes : List Byte) : State :=
  { s with pix := (draw (s.reg x).toNat (s.reg y).toNat bytes s.pix).1 }.setReg vF
    (flagByte (draw (s.reg x).toNat (s.reg y).toNat bytes s.pix).2)

/-- R192: DRW is a bounded read of n bytes, and then the drawing of them. -/
theorem exec_drw (x y : Reg) (n : Fin 16) (s : State) :
    exec (.drw x y n) s = withBytes s.base n.val s fun bytes => .next (s.drawSprite x y bytes) := rfl

/-- What a DRW that completes leaves: the sprite is drawn with a collision bit that starts at 0, VF holds that bit, and
nothing else changes (R192). -/
def DrawsSprite (x y : Reg) (n : Fin 16) (s t : State) : Prop :=
  ∃ hit, XorsIn (drwBit s x y n.val) (s.pix, false) (t.pix, hit) ∧ t.reg vF = flagByte hit ∧
    Frame (fun p => p = .reg vF ∨ ∃ xx yy, p = .pix xx yy) s t

/-- The n bytes from I on draw the sprite of a DRW. -/
theorem drawsSprite_readBytes (x y : Reg) (n : Fin 16) (s : State) :
    DrawsSprite x y n s (s.drawSprite x y (Memory.readBytes s.mem s.base n.val)) := by
  refine ⟨_, ?_, State.reg_setReg_self _ vF _, ?_⟩
  · refine (xorsIn_blitRows _ _ _ _ ?_).congr fun xx yy => (drwBit_iff s x y n.val xx yy).symm
    rw [Memory.length_readBytes]
    omega
  · exact ((Frame.setPix s _).mono fun _ => .inr).trans ((Frame.setReg _ vF _).mono fun _ => .inl)

/-- All a DRW can do (R192): draw its sprite where its n bytes end inside memory, or raise OutOfBounds in the same
state. -/
theorem exec_drw_cases (x y : Reg) (n : Fin 16) (s : State) :
    ((n.val = 0 ∨ s.base + n.val - 1 ≤ 0xFFF) ∧ ∃ t, exec (.drw x y n) s = .next t ∧ DrawsSprite x y n s t) ∨
    (¬(n.val = 0 ∨ s.base + n.val - 1 ≤ 0xFFF) ∧ exec (.drw x y n) s = .fault (.outOfBounds s)) := by
  have bound : n.val = 0 ∨ s.base + n.val ≤ Config.memSize ↔ n.val = 0 ∨ s.base + n.val - 1 ≤ 0xFFF := by
    simp only [Config.memSize]
    omega
  rw [exec_drw, ← bound]
  rcases withBytes_cases s.base n.val s fun bytes => .next (s.drawSprite x y bytes) with ⟨fits, done⟩ | faults
  · exact .inl ⟨fits, _, done, drawsSprite_readBytes x y n s⟩
  · exact .inr faults

/-- A DRW that completes has drawn its sprite. -/
theorem drawsSprite_of_exec {x y : Reg} {n : Fin 16} {s t : State} (h : exec (.drw x y n) s = .next t) :
    DrawsSprite x y n s t := by
  rcases exec_drw_cases x y n s with ⟨_, t', done, draws⟩ | ⟨_, faults⟩
  · cases h.symm.trans done
    exact draws
  · cases h.symm.trans faults

theorem flagByte_eq_one_iff (f : Bool) : flagByte f = 0x01 ↔ f = true := by cases f <;> decide

theorem flagByte_eq_zero_iff (f : Bool) : flagByte f = 0x00 ↔ ¬ f = true := by cases f <;> decide

/-! ## The obligations -/

/-- Settles O43: fifteen rows are on cells apart, and the collision bit starts at 0. -/
theorem blitterXorsAndCollides : Obligations.BlitterXorsAndCollides := by
  intro x0 y0 bytes d fits
  have drawn := xorsIn_blitRows x0 bytes y0 (d, false) (by omega)
  exact ⟨drawn.inverted, drawn.kept, drawn.collides_of_false⟩

/-- Settles O44: a DRW whose bytes end inside memory draws its sprite, and any other raises OutOfBounds. -/
theorem drwDrawsSprite : Obligations.DrwDrawsSprite := by
  refine fun x y n s => ⟨decode_of_eq_encode rfl (ofNat_eq_packXYZ 0xD x y n (by simp; omega)), ?_⟩
  rcases exec_drw_cases x y n s with ⟨fits, t, done, hit, drawn, flag, frame⟩ | ⟨exceeds, faults⟩
  · refine ⟨fun _ => ⟨t, done, drawn.inverted, drawn.kept, fun met => ?_, fun missed => ?_, frame⟩, ?_⟩
    · rw [flag, flagByte_eq_one_iff]
      exact drawn.collides_of_false.2 met
    · rw [flag, flagByte_eq_zero_iff]
      exact mt drawn.collides_of_false.1 missed
    · omega
  · exact ⟨fun fits => absurd fits exceeds, fun _ _ => faults⟩

/-- Settles O45: the two draws are of one sprite; the first leaves a clear display set on the sprite's 1 bits, which the
second then meets. -/
theorem drawingTwiceRestoresDisplay : Obligations.DrawingTwiceRestoresDisplay := by
  intro x y n s t u r done pix mem i vx vy again
  obtain ⟨_, first, -, frame⟩ := drawsSprite_of_exec done
  obtain ⟨hit, second, flag, -⟩ := drawsSprite_of_exec again
  have sameBase : u.base = s.base := congrArg BitVec.toNat (i.trans (frame .i (by simp)))
  have sameBit := drwBit_congr (fun a => mem ▸ frame (.mem a) (by simp)) sameBase vx vy n.val
  rw [pix, sameBit] at second
  refine ⟨first.restores second, fun clear => ?_⟩
  rw [flag, flagByte_eq_one_iff, second.collides_of_false, ← exists_spriteBit_iff]
  exact exists₂_congr fun xx yy => and_iff_right_of_imp (first.pixel_of_clear clear xx yy).2

/-- Settles O42: CLS replaces the display by the clear one. -/
theorem clsClearsDisplay : Obligations.ClsClearsDisplay :=
  ⟨by decide, fun s => ⟨_, rfl, Display.pixel_clear, Frame.setPix s Display.clear⟩⟩

end Sys2Proof.Machine
end

section
/-! SUPPORT. The obligations of spec/46_timers_keys.md about its four instructions: what a key press does to a wait, by
whether the key was up, and the instructions that move a timer or set the wait. -/

namespace Sys2Proof.Machine

/-! ## A key press meets a wait (R237) -/

/-- R237: the press of a key already held sets its key again, wait or no wait. -/
theorem State.keyDown_of_held {s : State} {k : Key} (held : s.keyAt k = true) :
    s.keyDown k = { s with key := s.key.set k.val true } := by
  rcases s.keyDown_cases k with e | ⟨_, _, up, _⟩
  · exact e
  · simp [held] at up

/-- R237: the press edge of a key resolves the wait. -/
theorem State.keyDown_of_pressEdge {s : State} {k : Key} {r : Reg} (waits : s.wait = some r) (up : s.keyAt k = false) :
    s.keyDown k = (State.setReg { s with key := s.key.set k.val true } r (BitVec.ofNat 8 k.val)).setWait none := by
  simp [State.keyDown, waits, up]

/-- R237: the number of a key is stored in a register as it is. -/
theorem toNat_ofNat_key (k : Key) : (BitVec.ofNat 8 k.val).toNat = k.val :=
  Nat.mod_eq_of_lt (k.isLt.trans (by decide))

/-! ## The obligations -/

/-- Settles O57: LD_R_K leaves the wait on VX and the keys as they were, so a press meets the wait by the two cases of
R237. -/
theorem keyWaitProtocol : Obligations.KeyWaitProtocol := by
  intro x k s t done
  obtain rfl : s.setWait (some x) = t := Host.Outcome.next.inj done
  have keys : (s.setWait (some x)).keyAt k = s.keyAt k := s.setWait_keyAt (some x) k
  refine ⟨stepEvent_of_waiting nofun, fun held => ⟨_, deliver_keyDown k _, ?_⟩,
    fun up => ⟨_, deliver_keyDown k _, ?_, ?_, Frame.keyDown _ k .pc (by simp)⟩⟩
  · rw [State.keyDown_of_held (keys.trans held)]
    exact ⟨rfl, s.setWait_reg (some x)⟩
  · rw [State.keyDown_of_pressEdge rfl (keys.trans up), State.setWait_wait]
  · rw [State.keyDown_of_pressEdge rfl (keys.trans up), State.setWait_reg, State.reg_setReg_self, toNat_ofNat_key]

/-- Settles O47: one write each, of VX with DT, of DT with VX and of ST with VX. -/
theorem timerMoves : Obligations.TimerMoves := fun x s =>
  ⟨decode_ofNat_x rfl rfl rfl, decode_ofNat_x rfl rfl rfl, decode_ofNat_x rfl rfl rfl, .of_setReg rfl,
    ⟨_, rfl, rfl, Frame.setDT s (s.reg x)⟩, ⟨_, rfl, rfl, Frame.setST s (s.reg x)⟩⟩

/-- Settles O48: one write of the wait. -/
theorem ldRKSetsWait : Obligations.LdRKSetsWait := fun x s =>
  ⟨decode_ofNat_x rfl rfl rfl, _, rfl, rfl, Frame.setWait s (some x)⟩

end Sys2Proof.Machine
end

section
/-! SUPPORT. The obligations of spec/60_exceptions.md: which instruction raises which fault and what a fault leaves, the
run that meets a fault again and again, and the events other than `step`. -/

namespace Sys2Proof.Machine

/-! ## The faults of the shared operations (R14, R212 to R215) -/

/-- R144: the one fault of a push is StackOverflow. -/
theorem pushThen_fault {w : Word} {s : State} {k : State → State} {f : Fault} (h : pushThen w s k = .fault f) :
    f = .stackOverflow s := by
  rcases pushThen_cases w s k with ⟨_, e⟩ | ⟨_, e⟩ <;> cases e.symm.trans h
  rfl

/-- R155: the one fault of a key test is InvalidKeyIndex. -/
theorem keyThen_fault {b : Byte} {s : State} {k : Key → State} {f : Fault} (h : keyThen b s k = .fault f) :
    f = .invalidKeyIndex s := by
  rcases keyThen_cases b s k with ⟨_, e⟩ | ⟨_, e⟩ <;> cases e.symm.trans h
  rfl

/-- R65: the one fault of a bounded store is OutOfBounds. -/
theorem storeBytes_fault {a : Nat} {xs : List Byte} {s : State} {f : Fault} (h : storeBytes a xs s = .fault f) :
    f = .outOfBounds s := by
  rcases storeBytes_cases a xs s with ⟨_, e⟩ | ⟨_, e⟩ <;> cases e.symm.trans h
  rfl

/-- R65: the one fault of a bounded load is OutOfBounds. -/
theorem withBytes_fault {a n : Nat} {s : State} {k : List Byte → State} {f : Fault}
    (h : withBytes a n s (fun bytes => .next (k bytes)) = .fault f) : f = .outOfBounds s := by
  rcases withBytes_cases a n s fun bytes => .next (k bytes) with ⟨_, e⟩ | ⟨_, e⟩ <;> cases e.symm.trans h
  rfl

/-! ## Which instruction raises what, and what is left (R216, R219) -/

/-- Settles O11: each faulting instruction is one shared operation, which has one fault and raises it in the state it is
given; the others complete. -/
theorem whoRaisesWhat : Obligations.WhoRaisesWhat := by
  intro i s f h
  cases i with
  | call nnn => exact .inl ⟨pushThen_fault ((exec_call nnn s).symm.trans h), nnn, rfl⟩
  | ret => exact .inr (.inl ⟨(popThen_eq_fault_iff.1 ((exec_ret s).symm.trans h)).2, rfl⟩)
  | skp x => exact .inr (.inr (.inl ⟨keyThen_fault ((exec_skp x s).symm.trans h), x, .inl rfl⟩))
  | sknp x => exact .inr (.inr (.inl ⟨keyThen_fault ((exec_sknp x s).symm.trans h), x, .inr rfl⟩))
  | ldBR x => exact .inr (.inr (.inr ⟨storeBytes_fault ((exec_ldBR x s).symm.trans h), .inl ⟨x, .inl rfl⟩⟩))
  | ldIIR x => exact .inr (.inr (.inr ⟨storeBytes_fault ((exec_ldIIR x s).symm.trans h), .inl ⟨x, .inr (.inl rfl)⟩⟩))
  | ldRII x => exact .inr (.inr (.inr ⟨withBytes_fault ((exec_ldRII x s).symm.trans h), .inl ⟨x, .inr (.inr rfl)⟩⟩))
  | drw x y n => exact .inr (.inr (.inr ⟨withBytes_fault ((exec_drw x y n s).symm.trans h), .inr ⟨x, y, n, rfl⟩⟩))
  | _ => cases h

/-- R219: an instruction raises before its first write. -/
theorem left_of_exec_fault {i : Instr} {s : State} {f : Fault} (h : exec i s = .fault f) : f.left = s := by
  rcases whoRaisesWhat i s f h with ⟨rfl, _⟩ | ⟨rfl, _⟩ | ⟨rfl, _⟩ | ⟨rfl, _⟩ <;> rfl

/-- Settles O12: the fetch and the decode fail in the state met, an instruction in that state advanced. -/
theorem faultLeavesState : Obligations.FaultLeavesState := by
  intro s f h
  rcases stepEvent_cases s with ⟨_, e⟩ | ⟨wait, outside, e⟩ | ⟨wait, fetch, illegal, e⟩ | ⟨i, wait, fetch, legal, e⟩
  · cases e.symm.trans h
  · cases e.symm.trans h
    exact .inl ⟨rfl, wait, not_le.1 outside⟩
  · cases e.symm.trans h
    exact .inr (.inl ⟨rfl, wait, fetch, illegal⟩)
  · have raised := e.symm.trans h
    rw [left_of_exec_fault raised]
    exact .inr (.inr ⟨i, ⟨wait, fetch, legal⟩, raised, advance_pc_toNat fetch, Frame.advance s⟩)

/-! ## The events other than `step` (R231, R236, R237, R240) -/

/-- R231: a tick writes DT, counted down over the naturals, where it stops at 0. -/
theorem State.tick_eq_setDT (s : State) : s.tick = s.setDT (BitVec.ofNat 8 (s.dt.toNat - 1)) := by
  unfold State.tick
  split
  · next zero =>
    rw [zero]
    exact congrArg s.setDT zero
  · next pos =>
    have : s.dt - 1 = BitVec.ofNat 8 (s.dt.toNat - 1) := by bv_omega
    rw [this]

/-- R231: DT after a tick, as a number. -/
theorem State.tick_dt_toNat (s : State) : s.tick.dt.toNat = s.dt.toNat - 1 := by
  have := s.dt.isLt
  rw [State.tick_eq_setDT, State.setDT_dt, BitVec.toNat_ofNat]
  omega

/-- Settles O49: the count of DT stops at 0. -/
theorem tickCountsDelayTimerDown : Obligations.TickCountsDelayTimerDown := fun s =>
  ⟨s.tick, deliver_tick s, fun _ => s.tick_dt_toNat, fun zero => by rw [s.tick_dt_toNat, zero], Frame.tick s⟩

/-- R237: with no wait set, a key press sets its key. -/
theorem State.keyDown_of_notWaiting {s : State} (k : Key) (wait : s.wait = none) :
    s.keyDown k = { s with key := s.key.set k.val true } := by
  rcases s.keyDown_cases k with e | ⟨_, waits, _⟩
  · exact e
  · cases wait.symm.trans waits

/-- R237: a key press sets its key, whether or not it resolves a wait. -/
theorem State.keyDown_keyAt_self (s : State) (k : Key) : (s.keyDown k).keyAt k = true := by
  have key : State.keyAt { s with key := s.key.set k.val true } k = true := by rw [keyAt_set, if_pos rfl]
  rcases s.keyDown_cases k with e | ⟨_, _, _, e⟩ <;> rw [e] <;> exact key

/-- Settles O50: the press edge writes the register and the wait after the key; without it the key is the only
write. -/
theorem keyDownResolvesWait : Obligations.KeyDownResolvesWait := by
  refine fun k s => ⟨_, deliver_keyDown k s, s.keyDown_keyAt_self k, fun r waits up => ?_, fun noEdge => ?_⟩
  · rw [State.keyDown_of_pressEdge waits up]
    refine ⟨?_, rfl, ?_⟩
    · rw [State.setWait_reg, State.reg_setReg_self, toNat_ofNat_key]
    · exact ((Frame.setKey s k true).mono fun _ => .inl).trans
        (((Frame.setReg _ r _).mono fun _ named => .inr (.inl named)).trans
          ((Frame.setWait _ none).mono fun _ named => .inr (.inr named)))
  · rw [noEdge.elim (State.keyDown_of_notWaiting k) State.keyDown_of_held]
    exact Frame.setKey s k true

/-- Settles O51: one write of the key. -/
theorem keyUpClearsKey : Obligations.KeyUpClearsKey := fun k s =>
  ⟨_, deliver_keyUp k s, (keyAt_set s k k false).trans (if_pos rfl), Frame.setKey s k false⟩

/-- Settles O52: one write of PC. -/
theorem jumpWritesPc : Obligations.JumpWritesPc := fun addr s => ⟨_, deliver_jump addr s, rfl, Frame.setPC s addr⟩

/-! ## A fault that recurs (R221, R264) -/

/-- R221: after an event that completes the run goes on from the next state. -/
theorem deliverAll_cons_of_next {e : Event} {s t : State} (done : deliver e s = .next t) (es : List Event) :
    deliverAll (e :: es) s = deliverAll es t := by
  rw [deliverAll, done]

/-- R221 (c): after a fault the run goes on from the state left, and the fault comes out before the later ones. -/
theorem deliverAll_cons_of_fault {e : Event} {s : State} {f : Fault} (fails : deliver e s = .fault f)
    (es : List Event) : deliverAll (e :: es) s = (deliverAll es f.left).map fun r => (r.1, f :: r.2) := by
  rw [deliverAll, fails]

/-- R221 (c): a step that fails in the state it met fails again as often as it is tried. -/
theorem deliverAll_replicate_step {s : State} {f : Fault} (fails : stepEvent s = .fault f) (left : f.left = s)
    (n : Nat) : deliverAll (List.replicate n .step) s = some (s, List.replicate n f) := by
  induction n with
  | zero => rfl
  | succ n ih =>
    rw [List.replicate_succ, deliverAll_cons_of_fault (e := .step) fails, left, ih]
    rfl

/-- The parts a run can reach once it has ended: DT and the keypad (R264). -/
abbrev dtOrKey : Part → Prop := fun p => p = .dt ∨ ∃ k, p = .key k

/-- With no wait set, an event other than a step and a jump reaches DT and the keypad only (R231, R236, R237). -/
theorem deliver_of_notWaiting {s : State} {e : Event} (wait : s.wait = none) (notStep : e ≠ .step)
    (notJump : ∀ a, e ≠ .jump a) : ∃ t, deliver e s = .next t ∧ Frame dtOrKey s t := by
  cases e with
  | step => exact absurd rfl notStep
  | tick => exact ⟨_, deliver_tick s, (Frame.tick s).mono fun _ => .inl⟩
  | keyDown k =>
    refine ⟨_, deliver_keyDown k s, ?_⟩
    rw [State.keyDown_of_notWaiting k wait]
    exact (Frame.setKey s k true).mono fun _ named => .inr ⟨k, named⟩
  | keyUp k => exact ⟨_, deliver_keyUp k s, (Frame.setKey s k false).mono fun _ named => .inr ⟨k, named⟩⟩
  | jump a => exact absurd rfl (notJump a)

/-- R264: from a PC that cannot be fetched from and with no wait, events without a jump get OutOfBounds for every step
and reach DT and the keypad only. -/
theorem deliverAll_of_outOfBounds (es : List Event) (noJump : ∀ a, Event.jump a ∉ es) :
    ∀ s : State, s.wait = none → Config.lastFetch < s.pc.toNat →
      ∃ t faults, deliverAll es s = some (t, faults) ∧ faults.length = es.count .step ∧
        (∀ f ∈ faults, f = .outOfBounds f.left) ∧ Frame dtOrKey s t := by
  induction es with
  | nil => exact fun s _ _ => ⟨s, [], rfl, rfl, nofun, Frame.refl _ s⟩
  | cons e es ih =>
    intro s wait outside
    have rest := ih fun a listed => noJump a (List.mem_cons_of_mem e listed)
    by_cases step : e = .step
    · subst step
      obtain ⟨t, faults, run, count, kind, frame⟩ := rest s wait outside
      refine ⟨t, .outOfBounds s :: faults, ?_, ?_, List.forall_mem_cons.2 ⟨rfl, kind⟩, frame⟩
      · rw [deliverAll_cons_of_fault (e := .step) (stepEvent_of_outOfBounds wait outside), Fault.left, run]
        rfl
      · rw [List.length_cons, count, List.count_cons_self]
    · obtain ⟨u, done, first⟩ := deliver_of_notWaiting wait step fun a here => noJump a (here ▸ List.mem_cons_self)
      have pc : u.pc = s.pc := first .pc (by simp)
      obtain ⟨t, faults, run, count, kind, frame⟩ := rest u ((first .wait (by simp)).trans wait) (pc ▸ outside)
      refine ⟨t, faults, (deliverAll_cons_of_next done es).trans run, ?_, kind, first.trans frame⟩
      rw [count, List.count_cons_of_ne step]

/-- Settles O13: both faults leave the state they met; an ended run stands at a PC that cannot be fetched from. -/
theorem fetchFaultRecurs : Obligations.FetchFaultRecurs := by
  refine ⟨fun s n wait => ⟨fun outside => ?_, fun fetch illegal => ?_⟩,
    fun ended s t events later implies ⟨faults, _, here⟩ noJump => ?_⟩
  · exact deliverAll_replicate_step (stepEvent_of_outOfBounds wait outside) rfl n
  · exact deliverAll_replicate_step (stepEvent_of_illegal wait fetch illegal) rfl n
  · obtain ⟨pc, wait⟩ := implies t faults here
    exact deliverAll_of_outOfBounds later noJump t wait (by rw [pc]; decide)

/-! ## A tick and an instruction that does not touch DT (R31, R231) -/

section SetDT

variable {s t : State} {b : Byte}

/-- A push does not read DT. -/
theorem pushThen_setDT {w : Word} {k : State → State} (keeps : ∀ u : State, k (u.setDT b) = (k u).setDT b)
    (h : pushThen w s k = .next t) : pushThen w (s.setDT b) k = .next (t.setDT b) := by
  obtain ⟨room, rfl⟩ := pushThen_next h
  rw [← keeps]
  exact pushThen_of_lt (s := s.setDT b) room

/-- A pop does not read DT. -/
theorem popThen_setDT {k : Word → State → State} (keeps : ∀ w (u : State), k w (u.setDT b) = (k w u).setDT b)
    (h : popThen s k = .next t) : popThen (s.setDT b) k = .next (t.setDT b) := by
  rcases popThen_cases s k with ⟨entry, nonempty, e⟩ | ⟨_, e⟩ | ⟨_, e⟩ <;> cases e.symm.trans h
  rw [← keeps]
  rcases popThen_cases (s.setDT b) k with ⟨_, _, e'⟩ | ⟨zero, _⟩ | ⟨deep, _⟩
  · exact e'
  · exact absurd zero nonempty
  · rw [State.setDT_sp] at deep
    omega

/-- A key test does not read DT. -/
theorem keyThen_setDT {a : Byte} {k k' : Key → State} (keeps : ∀ j, k' j = (k j).setDT b)
    (h : keyThen a s k = .next t) : keyThen a (s.setDT b) k' = .next (t.setDT b) := by
  rcases keyThen_cases a s k with ⟨lt, e⟩ | ⟨_, e⟩ <;> cases e.symm.trans h
  rw [← keeps]
  exact keyThen_of_val_eq rfl

/-- A bounded store does not read DT. -/
theorem storeBytes_setDT {a : Nat} {xs : List Byte} (h : storeBytes a xs s = .next t) :
    storeBytes a xs (s.setDT b) = .next (t.setDT b) := by
  rcases storeBytes_cases a xs s with ⟨fits, e⟩ | ⟨_, e⟩ <;> cases e.symm.trans h
  rcases storeBytes_cases a xs (s.setDT b) with ⟨_, e'⟩ | ⟨exceeds, _⟩
  · exact e'
  · exact absurd fits exceeds

/-- A bounded load does not read DT. -/
theorem withBytes_setDT {a n : Nat} {k k' : List Byte → State} (keeps : ∀ bytes, k' bytes = (k bytes).setDT b)
    (h : withBytes a n s (fun bytes => .next (k bytes)) = .next t) :
    withBytes a n (s.setDT b) (fun bytes => .next (k' bytes)) = .next (t.setDT b) := by
  rcases withBytes_cases a n s fun bytes => .next (k bytes) with ⟨fits, e⟩ | ⟨_, e⟩ <;> cases e.symm.trans h
  rw [← keeps]
  rcases withBytes_cases a n (s.setDT b) fun bytes => .next (k' bytes) with ⟨_, e'⟩ | ⟨exceeds, _⟩
  · exact e'
  · exact absurd fits exceeds

/-- R150: a conditional skip writes PC alone, so DT may be written before it or after it. -/
theorem State.skipIf_setDT (s : State) (b : Byte) (c : Bool) : (s.setDT b).skipIf c = (s.skipIf c).setDT b := by
  cases c <;> rfl

/-- R187: a block load of registers writes registers alone, so DT may be written before it or after it. -/
theorem State.setRegBlock_setDT (b : Byte) (bs : List Byte) :
    ∀ (s : State) (k : Nat), (s.setDT b).setRegBlock k bs = (s.setRegBlock k bs).setDT b := by
  induction bs with
  | nil => exact fun _ _ => rfl
  | cons c bs ih =>
    intro s k
    rw [State.setRegBlock, State.setRegBlock]
    split
    · exact ih (s.setReg _ c) (k + 1)
    · rfl

/-- R31, R130: an instruction that neither reads nor writes DT does the same whatever DT holds. -/
theorem exec_setDT {i : Instr} (notDT : ∀ x, i ≠ .ldRDT x ∧ i ≠ .ldDTR x) (h : exec i s = .next t) :
    exec i (s.setDT b) = .next (t.setDT b) := by
  cases i with
  | ldRDT x => exact absurd rfl (notDT x).1
  | ldDTR x => exact absurd rfl (notDT x).2
  | call nnn =>
    rw [exec_call] at h ⊢
    exact pushThen_setDT (fun _ => rfl) h
  | ret =>
    rw [exec_ret] at h ⊢
    exact popThen_setDT (fun _ _ => rfl) h
  | skp x =>
    rw [exec_skp] at h ⊢
    exact keyThen_setDT (fun j => s.skipIf_setDT b (s.keyAt j)) h
  | sknp x =>
    rw [exec_sknp] at h ⊢
    exact keyThen_setDT (fun j => s.skipIf_setDT b (!s.keyAt j)) h
  | seRB | sneRB | seRR | sneRR =>
    cases h
    exact congrArg _ (s.skipIf_setDT b _)
  | ldBR x =>
    rw [exec_ldBR] at h ⊢
    exact storeBytes_setDT h
  | ldIIR x =>
    rw [exec_ldIIR] at h ⊢
    exact storeBytes_setDT h
  | ldRII x =>
    rw [exec_ldRII] at h ⊢
    exact withBytes_setDT (fun bytes => State.setRegBlock_setDT b bytes s 0) h
  | drw x y n =>
    rw [exec_drw] at h ⊢
    exact withBytes_setDT (fun _ => rfl) h
  | _ =>
    cases h
    rfl

end SetDT

/-- Settles O58: the instruction leaves DT as it was, so the tick writes the same value before it and after it. -/
theorem tickCommutesWithOtherInstructions : Obligations.TickCommutesWithOtherInstructions := by
  intro i s t notDT done
  have dt : t.dt = s.dt := by
    rcases (exec_leaves (congrArg stateLeft done)).dt_eq_or with same | ⟨x, writes, _⟩
    · exact same
    · exact absurd writes (notDT x).2
  rw [State.tick_eq_setDT, State.tick_eq_setDT, dt]
  exact exec_setDT notDT done

end Sys2Proof.Machine
end

section
/-! SUPPORT. The obligations of spec/70_reset_and_hazards.md: the wait that only a press ends, the standard boot,
and the program read back as its instructions. -/

namespace Sys2Proof.Machine

/-! ## The wait (R263) -/

/-- The parts that events other than a key press can reach while a wait is set (R263). -/
abbrev dtOrPcOrKey : Part → Prop := fun p => p = .dt ∨ p = .pc ∨ ∃ k, p = .key k

/-- R120, R231, R236, R240: while a wait is set an event other than a key press completes, and reaches DT, PC and the
keypad only. -/
theorem deliver_of_waiting {s : State} {e : Event} (waits : s.wait ≠ none) (notPress : ∀ k, e ≠ .keyDown k) :
    ∃ t, deliver e s = .next t ∧ Frame dtOrPcOrKey s t := by
  cases e with
  | step => exact ⟨s, stepEvent_of_waiting waits, Frame.refl _ s⟩
  | tick => exact ⟨_, deliver_tick s, (Frame.tick s).mono fun _ => .inl⟩
  | keyDown k => exact absurd rfl (notPress k)
  | keyUp k => exact ⟨_, deliver_keyUp k s, (Frame.setKey s k false).mono fun _ named => .inr (.inr ⟨k, named⟩)⟩
  | jump a => exact ⟨_, deliver_jump a s, (Frame.setPC s a).mono fun _ named => .inr (.inl named)⟩

/-- Settles O56: by induction on the events; each leaves the wait to the next. -/
theorem waitOutlastsEverythingButAPress : Obligations.WaitOutlastsEverythingButAPress := by
  intro es
  induction es with
  | nil => exact fun s _ waits _ => ⟨s, rfl, waits, Frame.refl _ s⟩
  | cons e es ih =>
    intro s r waits noPress
    have waiting : s.wait ≠ none := by simp [waits]
    obtain ⟨u, done, first⟩ := deliver_of_waiting waiting fun k here => noPress k (here ▸ List.mem_cons_self)
    have stays : u.wait = s.wait := first .wait (by simp)
    obtain ⟨t, run, still, rest⟩ := ih u r (stays.trans waits) fun k listed => noPress k (List.mem_cons_of_mem e listed)
    exact ⟨t, (deliverAll_cons_of_next done es).trans run, still, first.trans rest⟩

/-! ## The loads (R257, R258) -/

/-- R258: an image that fits is written. -/
theorem State.loadBytes_of_le {s : State} {addr : Nat} {bytes : List Byte}
    (fits : addr + bytes.length ≤ Config.memSize) :
    s.loadBytes addr bytes = .next { s with mem := Memory.writeBytes s.mem addr bytes } :=
  if_pos fits

/-- A load touches memory and nothing else. -/
theorem Frame.setMem (s : State) (m : List Host.Cell) : Frame (fun p => ∃ a, p = .mem a) s { s with mem := m } := by
  intro p untouched
  cases p with
  | mem a => exact absurd ⟨a, rfl⟩ untouched
  | _ => rfl

/-- R257 to R259: a boot with an image that fits completes: the font, the image over it, the entry address. -/
theorem bootBytes_of_le {addr : Nat} {image : List Byte} (font : Vector Byte 80) (entry : Word)
    (fits : addr + image.length ≤ Config.memSize) :
    bootBytes font addr image entry = .next (State.jump
      { State.reset with mem := Memory.writeBytes (Memory.writeBytes [] Config.fontBase font.toList) addr image }
      entry) := by
  rw [bootBytes, State.loadBytes_of_le fits]
  rfl

/-- R260: memory after the two loads of the boot, byte by byte. -/
theorem Memory.read_boot (font : Vector Byte 80) (addr : Nat) (image : List Byte) (a : Nat) :
    Memory.read (Memory.writeBytes (Memory.writeBytes [] Config.fontBase font.toList) addr image) a =
      if addr ≤ a ∧ a < addr + image.length then image.getD (a - addr) 0
      else if a < 80 then font.toList.getD a 0 else 0x00 := by
  rw [Memory.read_writeBytes a (Memory.pairwise_writeBytes .nil), Memory.read_writeBytes a .nil]
  simp [Config.fontBase, Memory.read, Memory.unlisted]

/-- Settles O59: two block writes to the empty memory of reset, then the write of PC. -/
theorem bootDeterminesLaunchState : Obligations.BootDeterminesLaunchState := by
  refine fun font addr image entry fits =>
    ⟨_, bootBytes_of_le font entry fits, rfl, Memory.read_boot font addr image, ?_⟩
  exact ((Frame.setMem State.reset _).mono fun _ => .inr).trans ((Frame.setPC _ entry).mono fun _ => .inl)

/-! ## A program in memory (R61, R108) -/

/-- R60: a word is put together from its two bytes. -/
theorem wordOf_extractLsb' (w : Word) : wordOf (w.extractLsb' 8 8) (w.extractLsb' 0 8) = w := by
  refine BitVec.eq_of_toNat_eq ?_
  have := w.isLt
  rw [wordOf_toNat, BitVec.extractLsb'_toNat, BitVec.extractLsb'_toNat, Nat.shiftRight_eq_div_pow]
  omega

/-- R61: a program takes two bytes for each instruction. -/
theorem length_flatMap_encodeBytes (is : List Instr) : (is.flatMap encodeBytes).length = 2 * is.length := by
  simp [encodeBytes, Nat.mul_comm]

/-- R61: the bytes at 2j and 2j + 1 of a program are those of instruction j. -/
theorem wordOf_flatMap_encodeBytes {i : Instr} (is : List Instr) : ∀ {j : Nat}, is[j]? = some i →
    wordOf ((is.flatMap encodeBytes).getD (2 * j) 0) ((is.flatMap encodeBytes).getD (2 * j + 1) 0) = encode i := by
  induction is with
  | nil => exact fun h => by simp at h
  | cons i' is ih =>
    intro j h
    cases j with
    | zero =>
      obtain rfl : i' = i := Option.some.inj h
      exact wordOf_extractLsb' (encode i')
    | succ j => exact ih h

/-- Settles O60: the word at addr + 2j is put together from two bytes of the written block, which are those of
instruction j. -/
theorem loadedProgramIsFetched : Obligations.LoadedProgramIsFetched := by
  intro addr is s wf fits wfs
  have length := length_flatMap_encodeBytes is
  refine ⟨_, State.loadBytes_of_le (length ▸ fits), fun a outside => ?_, fun j i at_j => ?_⟩
  · rw [Memory.read_writeBytes a wf.1, length, if_neg (by omega)]
  · obtain ⟨below, _⟩ := List.getElem?_eq_some_iff.1 at_j
    refine decode_of_eq_encode (wfs i (List.mem_of_getElem? at_j)) ?_
    rw [Memory.readWord, Nat.add_assoc, Memory.read_writeBytes_add wf addr (by omega),
      Memory.read_writeBytes_add wf addr (by omega)]
    exact wordOf_flatMap_encodeBytes is at_j

end Sys2Proof.Machine
end
